-- ==== Sys2Proof/Word.lean ====
section
/-! DEFINITION. The one word of the machine: the byte (00_scope.md R9), and the index of a register (10_state.md R20). -/

namespace Sys2Proof

/-- A byte: 8 bits holding an unsigned value 0 to 255, bit 7 the most significant (R9). Register contents, memory cells,
addresses and the program counter are all bytes (R10). -/
abbrev Byte := BitVec 8

/-- The index of one of the eight registers R0 to R7 (R20). -/
abbrev Reg := Fin 8

/-- The operand byte that names a register: the whole byte is the index (R75). -/
def regByte (r : Reg) : Byte := BitVec.ofNat 8 r.val

end Sys2Proof
end

