-- ==== Sys2Proof/Config.lean ====
section
/-! DEFINITION. What is fixed for the machine: the parameters of 00_scope.md R7 and the type of the nine opcode parameters
of R8 (30_encoding.md R78, R79). Their default VALUES stand in Decode.lean, with the opcode table they belong to. -/

namespace Sys2Proof

/-- MEM_SIZE: the number of memory cells (R7, R50). -/
def Config.memSize : Nat := 256

/-- SP_INDEX: register 7 is the stack pointer (R7, R22). -/
def Config.spIndex : Reg := 7

/-- SP_RESET: register 7 after reset, and the fixed bound of the underflow check (R7, R21, R124). -/
def Config.spReset : Byte := 0xF4

/-- PC_RESET: the program counter after reset, the entry point (R7, R171). -/
def Config.pcReset : Byte := 0x00

/-- The nine opcode bytes the source does not give: named parameters of the configuration (30_encoding.md R78; 92_eei_decisions.md D7). -/
structure Opcodes where
  opcAdd : Byte
  opcCmp : Byte
  opcPush : Byte
  opcPop : Byte
  opcCall : Byte
  opcRet : Byte
  opcJmp : Byte
  opcJeq : Byte
  opcJne : Byte
  deriving DecidableEq, Repr

end Sys2Proof
end

