-- ==== Sys2Proof/Machine/State.lean ====
section
/-! DEFINITION. The whole state the spec gives the machine (10_state.md R20 to R35), its reset value, and why a step can stop. -/

namespace Sys2Proof.Machine

/-- The three comparison flags, three separate bits (R27; D17). -/
structure Flags where
  /-- fl.L -/
  less : Bool
  /-- fl.G -/
  greater : Bool
  /-- fl.E -/
  equal : Bool
  deriving DecidableEq, Repr

/-- The causes of a fault (60_exceptions.md R141). -/
inductive FaultCause where
  /-- DECODE, code 1: the opcode byte is in no row of the table (R143). -/
  | decode
  /-- ALU_UNSUPPORTED, code 3: reserved, raised by nothing in this hardware (R144, R104). -/
  | aluUnsupported
  /-- REG_INDEX, code 4: a register operand byte is greater than 7 (R145). -/
  | regIndex
  /-- ADDR_RANGE, code 5: an instruction's bytes, its successor or CALL's return address lie beyond 0xFF (R146). -/
  | addrRange
  /-- STACK_OVERFLOW, code 6: PUSH or CALL with sp ≤ 1 (R147). -/
  | stackOverflow
  /-- STACK_UNDERFLOW, code 7: POP or RET with sp ≥ 0xF4 (R148). -/
  | stackUnderflow
  deriving DecidableEq, Repr

/-- The report of a fatal error (R31): the cause, the opcode byte of the faulting instruction, the address it was fetched
from, and a further byte whose meaning depends on the cause (R141). -/
structure FaultRecord where
  cause : FaultCause
  opcode : Byte
  addr : Byte
  value : Byte
  deriving DecidableEq, Repr

/-- Memory contents: (address, byte) pairs in one canonical form (Machine/Ops.lean, `Memory.wf`). An unlisted cell reads as
`unlistedByte`. -/
abbrev Memory := List Host.Cell

/-- The state of the core: "(Memory contents, Register File, Flags, Program Counter, Halted)" (10_state.md), with the fault record
(R31) and the output stream (R33). R32 and R34: there is no other state. -/
structure State where
  /-- R0 to R7; R7 is the stack pointer (R20, R22). -/
  regs : Vector Byte 8
  /-- The program counter: a memory address (R24). -/
  pc : Byte
  /-- Less, Greater, Equal (R27). -/
  flags : Flags
  /-- The Halted bit (R30). -/
  halted : Bool
  /-- None, or the record of the fatal error (R31). -/
  fault : Option FaultRecord
  /-- The output stream, oldest byte first (R33). -/
  out : List Byte
  /-- The 256 memory cells (R50). -/
  mem : Memory
  deriving DecidableEq, Repr

/-- Why a step stops. Both are terminal conditions the spec states: "the core takes no further step" (R30, R31, R95). -/
inductive Fault where
  /-- Raised by `step` alone, in a state with halted = 1: only reset leaves it (R30). Safe: the spec says no step is taken. -/
  | halted
  /-- Raised by `step` alone, in a state whose fault record is r: only reset leaves it (R31, R140). Safe: the spec says no step is taken. -/
  | faulted (r : FaultRecord)
  deriving DecidableEq, Repr

/-- Why the model gives an instruction no meaning. -/
inductive Refusal where
  /-- Raised by a refused arm of `exec`, for an instruction the model does not yet give its meaning; no arm is one. Safe: a refusal proves nothing. -/
  | notModelled (mnemonic : String)
  deriving DecidableEq, Repr

/-- What executing one instruction answers. -/
abbrev Result := Host.Outcome State Fault Refusal

/-- The state after reset, with memory "zero-initialized" (R35, R50, R170). The loader's image is a load from outside (R172; log entry 6). -/
def State.reset : State where
  regs := #v[0x00, 0x00, 0x00, 0x00, 0x00, 0x00, 0x00, Config.spReset]
  pc := Config.pcReset
  flags := ⟨false, false, false⟩
  halted := false
  fault := none
  out := []
  mem := []

end Sys2Proof.Machine
end

