-- ==== Sys2Proof/Machine/Ops.lean ====
section
/-! DEFINITION. The named operations over memory, registers, the program counter, the output and the fault record: the primitives of
00_scope.md R11, `Advance` of 40_fetch_decode.md R93, and raising a fault (60_exceptions.md R140). -/

namespace Sys2Proof.Machine

/-! ## Memory (20_memory.md R50 to R53) -/

/-- What a cell nothing has written reads as: memory is "zero-initialized" (R50, R35). -/
def unlistedByte : Byte := 0x00

/-- The byte listed for an address: the first entry with that key. -/
def Memory.find (a : Nat) : Memory → Byte
  | [] => unlistedByte
  | cell :: rest => if cell.1 = a then cell.2 else Memory.find a rest

/-- MemRead(addr, 1): the byte last written to the cell, or its reset content (R52). It cannot fail. -/
def Memory.read (m : Memory) (addr : Byte) : Byte := Memory.find addr.toNat m

/-- The entries other than those of one address. -/
def Memory.drop (a : Nat) : Memory → Memory
  | [] => []
  | cell :: rest => if cell.1 = a then Memory.drop a rest else cell :: Memory.drop a rest

/-- Put an entry before the first entry with a greater key. -/
def Memory.insert (new : Host.Cell) : Memory → Memory
  | [] => [new]
  | cell :: rest => if new.1 < cell.1 then new :: cell :: rest else cell :: Memory.insert new rest

/-- MemWrite(addr, 1, v): replace the content of the cell and change no other (R52). Writing what an unlisted cell reads as
removes the entry, so that equal memories are equal lists. -/
def Memory.write (m : Memory) (addr v : Byte) : Memory :=
  if v = unlistedByte then Memory.drop addr.toNat m
  else Memory.insert (addr.toNat, v) (Memory.drop addr.toNat m)

/-- The canonical form: keys strictly rising, every key one of the 256 addresses (R50), no entry equal to the unlisted byte. -/
abbrev Memory.wf (m : Memory) : Prop :=
  m.Pairwise (fun x y => x.1 < y.1) ∧ ∀ cell ∈ m, cell.1 < Config.memSize ∧ cell.2 ≠ unlistedByte

/-- Read one byte of the state's memory (R52). -/
def State.readByte (s : State) (addr : Byte) : Byte := s.mem.read addr

/-- Store one byte in the state's memory (R52). -/
def State.writeByte (s : State) (addr v : Byte) : State := { s with mem := s.mem.write addr v }

/-! ## Registers (10_state.md R20 to R22) -/

/-- x[r]: read of a register (R11). -/
def State.readReg (s : State) (r : Reg) : Byte := s.regs[r]

/-- x[r] <- v: write of a register (R11). -/
def State.writeReg (s : State) (r : Reg) (v : Byte) : State := { s with regs := s.regs.set r v }

/-- sp: another spelling of x[7], for reading (R22). -/
def State.sp (s : State) : Byte := s.readReg Config.spIndex

/-- sp <- v: another spelling of x[7], for writing (R22). -/
def State.setSp (s : State) (v : Byte) : State := s.writeReg Config.spIndex v

/-! ## Program counter, flags, halted, output (R24, R27, R30, R33) -/

/-- pc <- target (R11). -/
def State.setPc (s : State) (target : Byte) : State := { s with pc := target }

/-- fl <- (l, g, e): all three flags at once (R11). -/
def State.setFlags (s : State) (f : Flags) : State := { s with flags := f }

/-- halted <- 1 (R30). -/
def State.halt (s : State) : State := { s with halted := true }

/-- Emit(v): append a byte to the output stream (R33). -/
def State.emit (s : State) (v : Byte) : State := { s with out := s.out ++ [v] }

/-! ## Faults (60_exceptions.md R140 to R148) -/

/-- What the fault record says of the instruction: its opcode byte, as fetched, and the address it was fetched from (R31, R91). -/
structure Origin where
  opcode : Byte
  addr : Byte
  deriving DecidableEq, Repr

/-- The origin of the instruction a step at this state executes: op = MemRead(pc, 1) and a = pc, taken before any effect (R90, R62). -/
def State.origin (s : State) : Origin := ⟨s.readByte s.pc, s.pc⟩

/-- raise Fault(cause, opcode, addr, value): set the fault record and nothing else; no register is saved, pc is not redirected, no
handler runs (R140). There is no return from it (R152): only reset clears the record. -/
def State.raise (s : State) (o : Origin) (cause : FaultCause) (value : Byte) : State :=
  { s with fault := some ⟨cause, o.opcode, o.addr, value⟩ }

/-- Advance(n): the last action of an instruction that falls through (R93). A successor at 0x100 leaves pc = 0x00 and raises
ADDR_RANGE after every other effect (R146 case (b)). -/
def State.advance (s : State) (o : Origin) (n : Nat) : State :=
  if o.addr.toNat + n ≤ 0xFF then s.setPc (BitVec.ofNat 8 (o.addr.toNat + n))
  else (s.setPc 0x00).raise o .addrRange 0x00

/-- The code of a cause (R141). Code 0 means no fault and 2 is not used. -/
def FaultCause.code : FaultCause → Nat
  | .decode => 1
  | .aluUnsupported => 3
  | .regIndex => 4
  | .addrRange => 5
  | .stackOverflow => 6
  | .stackUnderflow => 7

/-! ## The stack (43_stack.md R120, R124) -/

/-- sp -8 1: the address a PUSH or CALL stores to (R51, R56, R120). -/
def State.pushSlot (s : State) : Byte := s.sp - 1

/-- The check before a push: sp ≤ 1 raises STACK_OVERFLOW before any effect, recording sp (R124, R147). -/
def State.guardPush (s : State) (body : Result) : Result :=
  if s.sp.toNat ≤ 1 then .next (s.raise s.origin .stackOverflow s.sp) else body

/-- The check before a pop: sp ≥ 0xF4 raises STACK_UNDERFLOW before any effect, recording sp (R124, R148). -/
def State.guardPop (s : State) (body : Result) : Result :=
  if Config.spReset.toNat ≤ s.sp.toNat then .next (s.raise s.origin .stackUnderflow s.sp) else body

end Sys2Proof.Machine
end

