-- ==== Sys2Proof/Machine/Flags.lean ====
section
/-! DEFINITION. The ALU's three functions: sum, product and the comparison that sets the flags (41_alu.md R100 to R103). -/

namespace Sys2Proof.Machine

/-- The sum modulo 256; no carry is kept (R100, R103; D2). -/
def aluAdd (va vb : Byte) : Byte := BitVec.ofNat 8 ((va.toNat + vb.toNat) % 256)

/-- The low 8 bits of the unsigned product (R101, R103; D2). -/
def aluMul (va vb : Byte) : Byte := BitVec.ofNat 8 ((va.toNat * vb.toNat) % 256)

/-- The flags of comparing two bytes as unsigned numbers: exactly one is set (R102; D3). -/
def aluCompare (va vb : Byte) : Flags :=
  if va.toNat < vb.toNat then ⟨true, false, false⟩
  else if vb.toNat < va.toNat then ⟨false, true, false⟩
  else ⟨false, false, true⟩

end Sys2Proof.Machine
end

