-- ==== Sys2Proof/Machine/Operands.lean ====
section
/-! DEFINITION. The operand forms (30_encoding.md R71 to R76) and the checks that come before an instruction's own rule
(40_fetch_decode.md R90; 60_exceptions.md R145, R146 case (a), R149 items 2 and 3). Format Z has no operand byte and no check. -/

namespace Sys2Proof.Machine

/-- The register an operand byte names: the whole byte, 0 to 7; nothing for 8 to 255 (R75). -/
def operandReg (b : Byte) : Option Reg := if h : b.toNat < 8 then some ⟨b.toNat, h⟩ else none

/-- The range check on the operand bytes of an instruction n bytes long: a + n - 1 > 0xFF raises ADDR_RANGE before any effect (R146 (a)). -/
def State.guardFetch (s : State) (n : Nat) (body : Result) : Result :=
  if 0xFF < s.pc.toNat + n - 1 then .next (s.raise s.origin .addrRange 0x00) else body

/-- The check of one operand byte in a register position: a byte above 7 raises REG_INDEX before any effect, recording the byte (R145). -/
def State.guardReg (s : State) (b : Byte) (body : Reg → Result) : Result :=
  match operandReg b with
  | none => .next (s.raise s.origin .regIndex b)
  | some r => body r

/-- Format R: range check, then the register operand (R72). -/
def formR (r : Byte) (s : State) (body : Reg → Result) : Result :=
  s.guardFetch 2 (s.guardReg r body)

/-- Format RR: range check, then b1, then b2 (R73, R149). -/
def formRR (ra rb : Byte) (s : State) (body : Reg → Reg → Result) : Result :=
  s.guardFetch 3 (s.guardReg ra fun a => s.guardReg rb fun b => body a b)

/-- Format RI: range check, then the register operand; the immediate is never checked (R74, R110). -/
def formRI (r : Byte) (s : State) (body : Reg → Result) : Result :=
  s.guardFetch 3 (s.guardReg r body)

end Sys2Proof.Machine
end

