-- ==== Sys2Proof/Machine/Alu.lean ====
section
/-! DEFINITION. ADD, MUL, CMP (41_alu.md R100 to R102). -/

namespace Sys2Proof.Machine

/-- ADD: both operands are read before the write (R100). -/
def execAdd (ra rb : Byte) (s : State) : Result :=
  formRR ra rb s fun a b =>
    .next ((s.writeReg a (aluAdd (s.readReg a) (s.readReg b))).advance s.origin 3)

/-- MUL: both operands are read before the write (R101). -/
def execMul (ra rb : Byte) (s : State) : Result :=
  formRR ra rb s fun a b =>
    .next ((s.writeReg a (aluMul (s.readReg a) (s.readReg b))).advance s.origin 3)

/-- CMP: writes the three flags and no register (R102). -/
def execCmp (ra rb : Byte) (s : State) : Result :=
  formRR ra rb s fun a b =>
    .next ((s.setFlags (aluCompare (s.readReg a) (s.readReg b))).advance s.origin 3)

end Sys2Proof.Machine
end

