-- ==== Sys2Proof/Machine/ControlFlow.lean ====
section
/-! DEFINITION. CALL, RET, JMP, JEQ, JNE (44_control_flow.md R130 to R135). -/

namespace Sys2Proof.Machine

/-- The return address a CALL stores: the address of the instruction after it (R130). -/
def State.returnAddr (s : State) : Byte := BitVec.ofNat 8 (s.pc.toNat + 2)

/-- CALL's check of its return address: a + 2 = 0x100 raises ADDR_RANGE before any effect (R146 case (c)). -/
def State.guardReturn (s : State) (body : Result) : Result :=
  if 0xFF < s.pc.toNat + 2 then .next (s.raise s.origin .addrRange 0x00) else body

/-- CALL: decrement sp, store the return address at the new sp, then jump to the register, read last: CALL R7 jumps to the new sp
(R130, R135). -/
def execCall (r : Byte) (s : State) : Result :=
  formR r s fun q =>
    s.guardReturn
      (s.guardPush
        (let s1 := s.setSp s.pushSlot
         let s2 := s1.writeByte s1.sp s.returnAddr
         .next (s2.setPc (s2.readReg q))))

/-- RET: pop into pc; a plain return, not a return from a fault (R131, R152). -/
def execRet (s : State) : Result :=
  s.guardPop (.next ((s.setPc (s.readByte s.sp)).setSp (s.sp + 1)))

/-- JMP: nothing but pc changes (R132). -/
def execJmp (r : Byte) (s : State) : Result :=
  formR r s fun q => .next (s.setPc (s.readReg q))

/-- JEQ: the operand byte is checked whether or not the jump is taken (R133; D9). -/
def execJeq (r : Byte) (s : State) : Result :=
  formR r s fun q => .next (if s.flags.equal then s.setPc (s.readReg q) else s.advance s.origin 2)

/-- JNE: taken when Equal is 0, before any CMP too (R134). -/
def execJne (r : Byte) (s : State) : Result :=
  formR r s fun q => .next (if s.flags.equal then s.advance s.origin 2 else s.setPc (s.readReg q))

end Sys2Proof.Machine
end

