-- ==== Sys2Proof/Machine/DataMovement.lean ====
section
/-! DEFINITION. LDI, PRN, HLT (42_data_movement.md R110 to R112). -/

namespace Sys2Proof.Machine

/-- LDI: the immediate as it stands (R110, R76). -/
def execLdi (r imm : Byte) (s : State) : Result :=
  formRI r s fun q => .next ((s.writeReg q imm).advance s.origin 3)

/-- PRN: one emission of the register's byte (R111). -/
def execPrn (r : Byte) (s : State) : Result :=
  formR r s fun q => .next ((s.emit (s.readReg q)).advance s.origin 2)

/-- HLT: pc keeps the address of the HLT byte (R112; 90_conflicts.md C1). -/
def execHlt (s : State) : Result := .next s.halt

end Sys2Proof.Machine
end

