-- ==== Sys2Proof/Machine/Stack.lean ====
section
/-! DEFINITION. PUSH, POP (43_stack.md R121 to R124). -/

namespace Sys2Proof.Machine

/-- PUSH: decrement sp, then read the register, then store at the new sp: PUSH R7 stores the decremented value (R121, R123). -/
def execPush (r : Byte) (s : State) : Result :=
  formR r s fun q =>
    s.guardPush
      (let s1 := s.setSp s.pushSlot
       .next ((s1.writeByte s1.sp (s1.readReg q)).advance s.origin 2))

/-- POP: load from sp, write the register, then increment sp as it stands after that write: POP R7 leaves the popped byte plus 1
modulo 256 (R122, R123). -/
def execPop (r : Byte) (s : State) : Result :=
  formR r s fun q =>
    s.guardPop
      (let s1 := s.writeReg q (s.readByte s.sp)
       .next ((s1.setSp (s1.sp + 1)).advance s.origin 2))

end Sys2Proof.Machine
end

