-- ==== Sys2Proof/Syntax.lean ====
section
/-! DEFINITION. The instruction set: the 13 instructions of 30_encoding.md R77, one constructor for each row of spec/opcode_table.json. -/

namespace Sys2Proof

/-- An instruction with its operand bytes as they stand in memory. A register operand is the WHOLE byte (R75): the values 8 to
255 are ill-formed (WellFormed.lean) and executing one raises REG_INDEX. `ra`, `rb`, `r` are register operands, `imm` is LDI's immediate. -/
inductive Instr where
  /-- R100, format RR. -/
  | add (ra rb : Byte)
  /-- R101, format RR. -/
  | mul (ra rb : Byte)
  /-- R102, format RR. -/
  | cmp (ra rb : Byte)
  /-- R110, format RI. -/
  | ldi (r imm : Byte)
  /-- R111, format R. -/
  | prn (r : Byte)
  /-- R112, format Z. -/
  | hlt
  /-- R121, format R. -/
  | push (r : Byte)
  /-- R122, format R. -/
  | pop (r : Byte)
  /-- R130, format R. -/
  | call (r : Byte)
  /-- R131, format Z. -/
  | ret
  /-- R132, format R. -/
  | jmp (r : Byte)
  /-- R133, format R. -/
  | jeq (r : Byte)
  /-- R134, format R. -/
  | jne (r : Byte)
  deriving DecidableEq, Repr

/-- The operand bytes, in the order they follow the opcode byte (R71 to R74). -/
def Instr.operands : Instr → List Byte
  | .add ra rb => [ra, rb]
  | .mul ra rb => [ra, rb]
  | .cmp ra rb => [ra, rb]
  | .ldi r imm => [r, imm]
  | .prn r => [r]
  | .hlt => []
  | .push r => [r]
  | .pop r => [r]
  | .call r => [r]
  | .ret => []
  | .jmp r => [r]
  | .jeq r => [r]
  | .jne r => [r]

/-- The operand bytes that stand in a register position, in the order they are checked (R72 to R74, R149): LDI's immediate is none. -/
def Instr.regOperands : Instr → List Byte
  | .add ra rb => [ra, rb]
  | .mul ra rb => [ra, rb]
  | .cmp ra rb => [ra, rb]
  | .ldi r _ => [r]
  | .prn r => [r]
  | .hlt => []
  | .push r => [r]
  | .pop r => [r]
  | .call r => [r]
  | .ret => []
  | .jmp r => [r]
  | .jeq r => [r]
  | .jne r => [r]

/-- The length in bytes, a property of the opcode (R77, R83): LEN0, LEN1, LEN2 of R7. -/
def Instr.length : Instr → Nat
  | .add _ _ => 3
  | .mul _ _ => 3
  | .cmp _ _ => 3
  | .ldi _ _ => 3
  | .prn _ => 2
  | .hlt => 1
  | .push _ => 2
  | .pop _ => 2
  | .call _ => 2
  | .ret => 1
  | .jmp _ => 2
  | .jeq _ => 2
  | .jne _ => 2

end Sys2Proof
end

