-- ==== Sys2Proof/WellFormed.lean ====
section
/-! DEFINITION. Which instructions are legal: every register operand is 0 to 7 (30_encoding.md R72 to R75, R82). An opcode byte
outside the table is no instruction at all (Decode.lean), and LDI's immediate is always legal (R82). -/

namespace Sys2Proof

/-- A byte is a legal register operand: "legal values 0 to 7" (R72, R73, R74). -/
def regOk (b : Byte) : Bool := decide (b.toNat ≤ 7)

/-- Every register operand of the instruction is legal (R82). -/
def Instr.wf (i : Instr) : Bool := i.regOperands.all regOk

end Sys2Proof
end

