-- ==== Sys2Proof/Decode.lean ====
section
/-! DEFINITION. The opcode table, the decoder (total on any bytes, rejecting by name) and the encoder (30_encoding.md R70 to R83). -/

namespace Sys2Proof

/-- The default values of the nine opcode parameters: ADD 0xA0, CMP 0xA7, PUSH 0x45, POP 0x46, CALL 0x50, RET 0x11, JMP 0x54,
JEQ 0x55, JNE 0x56 (R77, R78). PRESUMED (log entry 2): the spec marks them as general knowledge. -/
def Config.opcodes : Opcodes where
  opcAdd := 0xA0
  opcCmp := 0xA7
  opcPush := 0x45
  opcPop := 0x46
  opcCall := 0x50
  opcRet := 0x11
  opcJmp := 0x54
  opcJeq := 0x55
  opcJne := 0x56

/-- The opcode byte of LDI, fixed by the source (R77). -/
def opcLdi : Byte := 0x82
/-- The opcode byte of MUL, fixed by the source (R77). -/
def opcMul : Byte := 0xA2
/-- The opcode byte of PRN, fixed by the source (R77). -/
def opcPrn : Byte := 0x47
/-- The opcode byte of HLT, fixed by the source (R77). -/
def opcHlt : Byte := 0x01

/-- The four instruction formats, each holding the instruction it makes of its operand bytes. -/
inductive Form where
  /-- Format Z: no operand byte (R71). -/
  | z (make : Instr)
  /-- Format R: one register operand (R72). -/
  | r (make : Byte → Instr)
  /-- Format RR: two register operands (R73). -/
  | rr (make : Byte → Byte → Instr)
  /-- Format RI: a register operand and an immediate (R74). -/
  | ri (make : Byte → Byte → Instr)

/-- The length in bytes of an instruction of the format (R83). -/
def Form.length : Form → Nat
  | .z _ => 1
  | .r _ => 2
  | .rr _ => 3
  | .ri _ => 3

/-- One row of the opcode map. -/
structure Row where
  /-- The mnemonic as the table spells it. -/
  mnemonic : String
  /-- The opcode byte: the whole byte must match (R77). -/
  opcode : Byte
  /-- The format, which gives the length and the operands. -/
  form : Form

/-- The opcode map of R77 for an assignment of the nine parameters. -/
def rows (c : Opcodes) : List Row :=
  [ ⟨"ADD", c.opcAdd, .rr .add⟩,
    ⟨"MUL", opcMul, .rr .mul⟩,
    ⟨"CMP", c.opcCmp, .rr .cmp⟩,
    ⟨"LDI", opcLdi, .ri .ldi⟩,
    ⟨"PRN", opcPrn, .r .prn⟩,
    ⟨"HLT", opcHlt, .z .hlt⟩,
    ⟨"PUSH", c.opcPush, .r .push⟩,
    ⟨"POP", c.opcPop, .r .pop⟩,
    ⟨"CALL", c.opcCall, .r .call⟩,
    ⟨"RET", c.opcRet, .z .ret⟩,
    ⟨"JMP", c.opcJmp, .r .jmp⟩,
    ⟨"JEQ", c.opcJeq, .r .jeq⟩,
    ⟨"JNE", c.opcJne, .r .jne⟩ ]

/-- The 13 opcode bytes of an assignment, in the table's order. -/
def opcodeBytes (c : Opcodes) : List Byte := (rows c).map Row.opcode

/-- The constraints every assignment meets (R79): the 13 opcode bytes are pairwise distinct (so none of the nine is one of the
four the source fixes), and none is 0xFF. -/
abbrev Opcodes.Valid (c : Opcodes) : Prop := (opcodeBytes c).Nodup ∧ (0xFF : Byte) ∉ opcodeBytes c

/-- Look an opcode byte up in the table: a match of the whole byte and nothing else (R77, R80). -/
def findRow (c : Opcodes) (op : Byte) : Option Row := (rows c).find? fun row => row.opcode == op

/-- Why the decoder rejects a list of bytes. -/
inductive DecodeError where
  /-- There is no opcode byte. The fetch of a step never gives this list. -/
  | noBytes
  /-- The opcode byte is in no row: the "fatal decode failure" of R81 and R143. -/
  | unknownOpcode (op : Byte)
  /-- The opcode byte is in the table and an operand byte is missing (R146 case (a)). -/
  | truncated (op : Byte)
  deriving DecidableEq, Repr

/-- What the decoder answers: an instruction and the bytes after it, or a named rejection. -/
inductive DecodeResult where
  /-- The instruction read and the bytes that follow it. -/
  | ok (i : Instr) (rest : List Byte)
  /-- The bytes are rejected for this reason. -/
  | reject (e : DecodeError)
  deriving DecidableEq, Repr

/-- Read the operand bytes of a format (R71 to R74): "PC+1, PC+2" in that order (R54). -/
def decodeOperands (op : Byte) : Form → List Byte → DecodeResult
  | .z make, rest => .ok make rest
  | .r make, b1 :: rest => .ok (make b1) rest
  | .r _, [] => .reject (.truncated op)
  | .rr make, b1 :: b2 :: rest => .ok (make b1 b2) rest
  | .rr _, [_] => .reject (.truncated op)
  | .rr _, [] => .reject (.truncated op)
  | .ri make, b1 :: b2 :: rest => .ok (make b1 b2) rest
  | .ri _, [_] => .reject (.truncated op)
  | .ri _, [] => .reject (.truncated op)

/-- The decoder under an assignment of the opcode parameters: the opcode byte selects the row, the row the length and the
operands (R70, R77, R83). Register operands above 7 decode to ill-formed instructions: they fault when EXECUTED (R82). -/
def decodeWith (c : Opcodes) : List Byte → DecodeResult
  | [] => .reject .noBytes
  | op :: rest =>
    match findRow c op with
    | none => .reject (.unknownOpcode op)
    | some row => decodeOperands op row.form rest

/-- The decoder with the default opcode bytes (R78). -/
def decode (bytes : List Byte) : DecodeResult := decodeWith Config.opcodes bytes

/-- The opcode byte of an instruction (R77). -/
def Instr.opcode (c : Opcodes) : Instr → Byte
  | .add _ _ => c.opcAdd
  | .mul _ _ => opcMul
  | .cmp _ _ => c.opcCmp
  | .ldi _ _ => opcLdi
  | .prn _ => opcPrn
  | .hlt => opcHlt
  | .push _ => c.opcPush
  | .pop _ => c.opcPop
  | .call _ => c.opcCall
  | .ret => c.opcRet
  | .jmp _ => c.opcJmp
  | .jeq _ => c.opcJeq
  | .jne _ => c.opcJne

/-- The encoder under an assignment of the opcode parameters: the opcode byte, then the operand bytes (R70 to R74). -/
def encodeWith (c : Opcodes) (i : Instr) : List Byte := i.opcode c :: i.operands

/-- The encoder with the default opcode bytes (R78). -/
def encode (i : Instr) : List Byte := encodeWith Config.opcodes i

/-- The bytes of a table word, lowest address first: byte k is bits 8k+7 to 8k of the word, every bit from nbits up is 0, and three
bytes are the longest instruction (spec/opcode_table.json numbers byte 0 as the low byte; R54 stores it at the lowest address). -/
def tableBytes (nbits w : Nat) : List Byte :=
  [ BitVec.ofNat 8 (w % 2 ^ nbits),
    BitVec.ofNat 8 (w % 2 ^ nbits / 256),
    BitVec.ofNat 8 (w % 2 ^ nbits / 65536) ]

/-- The instruction the decoder reads from an instruction whose bits are w, numbered as spec/opcode_table.json numbers them. -/
def decodeTableWord (nbits w : Nat) : Option Instr :=
  match decode (tableBytes nbits w) with
  | .ok i _ => some i
  | .reject _ => none

end Sys2Proof
end

