-- ==== Sys2Proof/Machine/Fetch.lean ====
section
/-! DEFINITION. What surrounds an instruction in a step: whether the core runs, the bytes it fetches, and the faults of the fetch
(40_fetch_decode.md R90 to R95). -/

namespace Sys2Proof.Machine

/-- Why the core takes no step at this state: a fault (R31) or Halted (R30). Both never hold together (R95). -/
def State.stopped (s : State) : Option Fault :=
  match s.fault with
  | some r => some (.faulted r)
  | none => if s.halted then some .halted else none

/-- The bytes a step may read after the opcode byte: those of pc + 1 and pc + 2 that exist. Nothing lies beyond 0xFF (R146, R59). -/
def State.operandWindow (s : State) : List Byte :=
  if s.pc.toNat + 2 ≤ 0xFF then [s.readByte (s.pc + 1), s.readByte (s.pc + 2)]
  else if s.pc.toNat + 1 ≤ 0xFF then [s.readByte (s.pc + 1)]
  else []

/-- The opcode byte at pc and the bytes that may be its operands, read from memory at the moment of the step (R90, R65). The
decoder takes as many of them as its row says (R83, R91). -/
def State.fetchWindow (s : State) : List Byte := s.readByte s.pc :: s.operandWindow

/-- The fault of the fetch: DECODE for an opcode byte in no row (R143), ADDR_RANGE for operand bytes beyond 0xFF (R146 (a)). -/
def State.raiseDecode (s : State) : DecodeError → State
  | .unknownOpcode _ => s.raise s.origin .decode 0x00
  | .truncated _ => s.raise s.origin .addrRange 0x00
  | .noBytes => s.raise s.origin .addrRange 0x00

/-- Store bytes at rising addresses from address a; what would lie beyond 0xFF is left out. -/
def Memory.storeFrom (m : Memory) (a : Nat) : List Byte → Memory
  | [] => m
  | b :: rest =>
    if a < Config.memSize then Memory.storeFrom (m.write (BitVec.ofNat 8 a) b) (a + 1) rest else m

end Sys2Proof.Machine
end

