-- ==== Sys2Proof/Machine/Step.lean ====
section
/-! DEFINITION. One step (40_fetch_decode.md R90), and how the host places an instruction where a step fetches it. -/

namespace Sys2Proof.Machine

/-- One step under an assignment of the opcode parameters: a stopped core takes none (R30, R31); otherwise fetch, decode and
execute (R90). A fault of the fetch or of the instruction is a NEXT state that holds the fault record (R140). -/
def stepWith (c : Opcodes) (s : State) : Host.Outcome State Fault Refusal :=
  match s.stopped with
  | some r => .fault r
  | none =>
    match decodeWith c s.fetchWindow with
    | .ok i _ => exec i s
    | .reject e => .next (s.raiseDecode e)

/-- One step with the default opcode bytes (R78). -/
def step (s : State) : Host.Outcome State Fault Refusal := stepWith Config.opcodes s

/-- The state with an instruction of nbits bits w stored at pc, in a core that runs, so that the very next step fetches and runs
it. It stands for the loader (R173; log entry 6). -/
def State.withFetchWord (s : State) (nbits w : Nat) : State :=
  { s with mem := s.mem.storeFrom s.pc.toNat (tableBytes nbits w), halted := false, fault := none }

end Sys2Proof.Machine
end

