-- ==== Sys2Proof/Machine/Observe.lean ====
section
/-! DEFINITION. What the outside can see: the exit status of a finished run (60_exceptions.md R142), the ports of the block
(10_state.md R36), and the memory accesses of one step in their order (20_memory.md R56, R62). -/

namespace Sys2Proof.Machine

/-- The exit status of a run that has ended: the cause code after a fault, 0 after HLT; a run that goes on has none (R142, R95). -/
def State.exitStatus (s : State) : Option Nat :=
  match s.stopped with
  | some (.faulted r) => some r.cause.code
  | some .halted => some 0
  | none => none

/-! ## Ports (R36; D11) -/

/-- The output ports that are views of the state. The three record ports carry a byte while fault_valid is 1 and the spec gives
them none otherwise, so they are absent then. -/
structure StatusPorts where
  halted : Bool
  faultValid : Bool
  faultCause : BitVec 3
  faultOpcode : Option Byte
  faultAddr : Option Byte
  faultValue : Option Byte
  deriving DecidableEq, Repr

/-- halted, fault_valid, fault_cause (0 means no fault, R141), fault_opcode, fault_addr, fault_value (R36). -/
def State.statusPorts (s : State) : StatusPorts where
  halted := s.halted
  faultValid := s.fault.isSome
  faultCause := match s.fault with
    | none => 0
    | some r => BitVec.ofNat 3 r.cause.code
  faultOpcode := s.fault.map (·.opcode)
  faultAddr := s.fault.map (·.addr)
  faultValue := s.fault.map (·.value)

/-- One access on the memory port: mem_addr with mem_we = 0, or mem_addr and mem_wdata with mem_we = 1 (R36). -/
inductive Access where
  | read (addr : Byte)
  | write (addr v : Byte)
  deriving DecidableEq, Repr

/-- Whether an instruction reaches its own rule: its bytes lie in memory and its register operands are legal (R90). -/
def operandsOk (i : Instr) (s : State) : Bool := decide (s.pc.toNat + i.length ≤ 256) && i.wf

/-- The stack access of an instruction, if it makes one: PUSH and CALL write at sp - 1, POP and RET read at sp, and no other
instruction reaches memory as data (R51, R56). A fault raised before any effect makes no access (R151). -/
def dataAccess (i : Instr) (s : State) : List Access :=
  if operandsOk i s then
    match i with
    | .push r =>
      if s.sp.toNat ≤ 1 then []
      else
        match operandReg r with
        | some q => [.write s.pushSlot ((s.setSp s.pushSlot).readReg q)]
        | none => []
    | .call _ =>
      if 0xFF < s.pc.toNat + 2 then [] else if s.sp.toNat ≤ 1 then [] else [.write s.pushSlot s.returnAddr]
    | .pop _ => if Config.spReset.toNat ≤ s.sp.toNat then [] else [.read s.sp]
    | .ret => if Config.spReset.toNat ≤ s.sp.toNat then [] else [.read s.sp]
    | .add _ _ => []
    | .mul _ _ => []
    | .cmp _ _ => []
    | .ldi _ _ => []
    | .prn _ => []
    | .hlt => []
    | .jmp _ => []
    | .jeq _ => []
    | .jne _ => []
  else []

/-- The fetch reads of an instruction of n bytes: pc, pc + 1, pc + 2 in that order (R56, R62). -/
def fetchAccesses (s : State) (n : Nat) : List Access :=
  (List.range n).map fun k => .read (s.pc + BitVec.ofNat 8 k)

/-- The memory accesses of one step, in order: the opcode, the operand bytes, then the data access (R56, R62). A step that raises
a fault of the fetch has read the opcode byte only (R90); a stopped core makes none (R30, R31). -/
def stepAccesses (c : Opcodes) (s : State) : List Access :=
  match s.stopped with
  | some _ => []
  | none =>
    match decodeWith c s.fetchWindow with
    | .ok i _ => fetchAccesses s i.length ++ dataAccess i s
    | .reject _ => fetchAccesses s 1

/-- The memory after an access: a read changes nothing (R53), a write replaces one cell (R52). -/
def Access.apply (m : Memory) : Access → Memory
  | .read _ => m
  | .write addr v => m.write addr v

/-- out_valid and out_data of one instruction: the byte it emits, if it is a PRN that reaches its own rule (R36, R111). -/
def emission (i : Instr) (s : State) : Option Byte :=
  if operandsOk i s then
    match i with
    | .prn r => (operandReg r).map s.readReg
    | .add _ _ => none
    | .mul _ _ => none
    | .cmp _ _ => none
    | .ldi _ _ => none
    | .hlt => none
    | .push _ => none
    | .pop _ => none
    | .call _ => none
    | .ret => none
    | .jmp _ => none
    | .jeq _ => none
    | .jne _ => none
  else none

end Sys2Proof.Machine
end

