-- ==== Sys2Proof/Machine/Reset.lean ====
section
/-! DEFINITION. The reset input and the loader (70_reset_and_hazards.md R170 to R173), and the image text format (30_encoding.md R84). -/

namespace Sys2Proof.Machine

/-- The `rst` input: from any state, the reset value of everything but memory, which only the host re-establishes (R170, R172, R36). -/
def State.rst (s : State) : State := { State.reset with mem := s.mem }

/-- The loader's one memory operation: the image from address 0, one byte a cell, over zero-filled memory (R173). -/
def loadImage (image : List Byte) : Memory := Memory.storeFrom [] 0 image

/-- The state at the start of a run: reset with the image loaded (R35, R172). An image longer than memory is outside the premise
of every run: it has no start state (R173; D13). -/
def bootState (image : List Byte) : Option State :=
  if image.length ≤ Config.memSize then some { State.reset with mem := loadImage image } else none

/-! ## The image text format (R84) -/

/-- A space or a tab. -/
def isBlankChar (ch : Char) : Bool := ch == ' ' || ch == '\t'

/-- A line up to its `#` comment. -/
def uncomment : List Char → List Char
  | [] => []
  | ch :: rest => if ch == '#' then [] else ch :: uncomment rest

/-- The value of binary digits, most significant first; nothing if a character is no digit. -/
def binaryValue (acc : Nat) : List Char → Option Nat
  | [] => some acc
  | ch :: rest =>
    if ch == '0' then binaryValue (2 * acc) rest
    else if ch == '1' then binaryValue (2 * acc + 1) rest
    else none

/-- What one line of an image file gives. -/
inductive ImageLine where
  /-- A blank or comment-only line, ignored. -/
  | skip
  /-- A line of 8 binary digits: one byte. -/
  | byte (b : Byte)
  /-- A line of another form, which R84 does not describe. -/
  | malformed
  deriving DecidableEq, Repr

/-- Read one line: 8 binary digits, blanks around them and a comment after them allowed (R84; log entry 5). -/
def parseImageLine (line : List Char) : ImageLine :=
  let digits := (((uncomment line).dropWhile isBlankChar).reverse.dropWhile isBlankChar).reverse
  if digits.isEmpty then .skip
  else if digits.length = 8 then
    match binaryValue 0 digits with
    | some v => .byte (BitVec.ofNat 8 v)
    | none => .malformed
  else .malformed

/-- The image of a file, given as its lines: the bytes in file order (R84). A malformed line gives no image (log entry 5). -/
def parseImage : List (List Char) → Option (List Byte)
  | [] => some []
  | line :: rest =>
    match parseImageLine line, parseImage rest with
    | .skip, some image => some image
    | .byte b, some image => some (b :: image)
    | .malformed, _ => none
    | .skip, none => none
    | .byte _, none => none

/-- The 8 binary digits of a byte, most significant bit first: its line in an image file (R84). -/
def imageLineOf (b : Byte) : List Char :=
  (List.range 8).map fun k => if b.getMsbD k then '1' else '0'

end Sys2Proof.Machine
end

