-- ==== Sys2Proof/Safety.lean ====
section
/-! DEFINITION. The terms claims are written in: a running core, the invariant of the machine, which faults a step raises and in
which order (60_exceptions.md R149), runs, and what a safe run is. -/

namespace Sys2Proof.Machine

/-- "with `halted` = 0 and `fault` = None" (R90): the states from which the core takes a step. -/
def State.Running (s : State) : Prop := s.halted = false ∧ s.fault = none

/-- "at most one is true" (R27). -/
def Flags.atMostOne (f : Flags) : Bool :=
  !(f.less && f.greater) && !(f.less && f.equal) && !(f.greater && f.equal)

/-- "exactly one of {Less, Greater, Equal} is true" (R27). -/
def Flags.exactlyOne (f : Flags) : Bool := f.atMostOne && (f.less || f.greater || f.equal)

/-- A fault record as R141's table has it: the value field by its cause, and no ALU_UNSUPPORTED, which nothing raises (R144). -/
def FaultRecord.wf (r : FaultRecord) : Bool :=
  match r.cause with
  | .decode => decide (r.value = 0)
  | .aluUnsupported => false
  | .regIndex => decide (7 < r.value.toNat)
  | .addrRange => decide (r.value = 0)
  | .stackOverflow => decide (r.value.toNat ≤ 1)
  | .stackUnderflow => decide (0xF4 ≤ r.value.toNat)

/-- The invariant of the machine: memory is in its canonical form, at most one flag is 1 (R27), halted and a fault never hold
together (R95), and a fault record is as R141 has it. -/
abbrev State.Inv (s : State) : Prop :=
  s.mem.wf ∧ s.flags.atMostOne = true ∧ ¬(s.halted = true ∧ s.fault.isSome = true) ∧
    (s.fault.all FaultRecord.wf) = true

/-- The report a fault of the instruction at this state makes: its opcode byte and its address (R31). -/
def faultHere (s : State) (cause : FaultCause) (value : Byte) : FaultRecord := ⟨cause, s.readByte s.pc, s.pc, value⟩

/-- The instruction raises a precise fault: "all state is exactly as it was before the step began, except that `fault` is set" (R151). -/
def Traps (i : Instr) (s : State) (cause : FaultCause) (value : Byte) : Prop :=
  exec i s = .next { s with fault := some (faultHere s cause value) }

/-- The faults every instruction raises before its own rule: operand bytes beyond 0xFF, then the first register operand byte
above 7 (R145, R146 case (a), R149 items 2 and 3). -/
def OperandFaults (i : Instr) (s : State) : Prop :=
  (0x100 < s.pc.toNat + i.length → Traps i s .addrRange 0) ∧
    ∀ before b after, s.pc.toNat + i.length ≤ 0x100 → i.regOperands = before ++ b :: after →
      (∀ x ∈ before, x.toNat ≤ 7) → 7 < b.toNat → Traps i s .regIndex b

/-- Every register but those listed holds what it held. -/
def SameRegsBut (ds : List Reg) (s t : State) : Prop := ∀ q : Reg, q ∉ ds → t.readReg q = s.readReg q

/-- Every byte of memory reads as it did. -/
def SameMemory (s t : State) : Prop := ∀ a : Byte, t.readByte a = s.readByte a

/-- Every byte of memory but one address reads as it did. -/
def SameMemoryBut (d : Byte) (s t : State) : Prop := ∀ a : Byte, a ≠ d → t.readByte a = s.readByte a

/-- The fault record is as it was, or is the report of a fault of this instruction (R31). -/
def FaultKeptOrHere (s t : State) : Prop := t.fault = s.fault ∨ ∃ cause value, t.fault = some (faultHere s cause value)

/-- The address an instruction stores to, if it stores: the slot below sp for a PUSH or CALL that passes its checks (R51, R56). -/
def storeAddr (i : Instr) (s : State) : Option Byte :=
  match i with
  | .push _ => if operandsOk i s && decide (1 < s.sp.toNat) then some s.pushSlot else none
  | .call _ => if operandsOk i s && decide (s.pc.toNat + 2 ≤ 0xFF) && decide (1 < s.sp.toNat) then some s.pushSlot else none
  | .add _ _ => none
  | .mul _ _ => none
  | .cmp _ _ => none
  | .ldi _ _ => none
  | .prn _ => none
  | .hlt => none
  | .pop _ => none
  | .ret => none
  | .jmp _ => none
  | .jeq _ => none
  | .jne _ => none

/-! ## Which fault a step raises (R149) -/

/-- The instruction length the opcode byte gives (R83); 0 for a byte in no row, which has none (R70). -/
def opcodeLength (c : Opcodes) (op : Byte) : Nat :=
  match findRow c op with
  | none => 0
  | some row => row.form.length

/-- Whether the instruction with this opcode byte falls through to its successor at this state (R25). -/
def fallsThrough (c : Opcodes) (op : Byte) (s : State) : Bool :=
  [c.opcAdd, opcMul, c.opcCmp, opcLdi, opcPrn, c.opcPush, c.opcPop].contains op ||
    (op == c.opcJeq && !s.flags.equal) || (op == c.opcJne && s.flags.equal)

/-- R149's list for the bytes at pc: the conditions in their order, each with its cause and the value it records (R141). -/
def faultConditions (c : Opcodes) (s : State) : List (Bool × FaultCause × Byte) :=
  let op := s.readByte s.pc
  let n := opcodeLength c op
  let b1 := s.readByte (s.pc + 1)
  let b2 := s.readByte (s.pc + 2)
  [ (!(opcodeBytes c).contains op, .decode, 0),
    (decide (0xFF < s.pc.toNat + n - 1), .addrRange, 0),
    (decide (2 ≤ n) && decide (7 < b1.toNat), .regIndex, b1),
    ([c.opcAdd, opcMul, c.opcCmp].contains op && decide (7 < b2.toNat), .regIndex, b2),
    (op == c.opcCall && decide (s.pc = 0xFE), .addrRange, 0),
    ([c.opcPush, c.opcCall].contains op && decide (s.sp.toNat ≤ 1), .stackOverflow, s.sp),
    ([c.opcPop, c.opcRet].contains op && decide (0xF4 ≤ s.sp.toNat), .stackUnderflow, s.sp),
    (fallsThrough c op s && decide (s.pc.toNat + n = 0x100), .addrRange, 0) ]

/-- The fault a step reports: "the first in this order" (R149), with the instruction's opcode byte and address (R31). -/
def firstFault (c : Opcodes) (s : State) : Option FaultRecord :=
  ((faultConditions c s).find? fun x => x.1).map fun x => faultHere s x.2.1 x.2.2

/-! ## Runs (R12, R95) -/

/-- t is reached from s by some number of steps. -/
inductive Reaches (c : Opcodes) (s : State) : State → Prop where
  | start : Reaches c s s
  | step {t u : State} : Reaches c s t → stepWith c t = .next u → Reaches c s u

/-- A safe run: it reaches t and no step of it raised a fault (a fault record is never cleared by a step, R31). -/
def SafeRun (c : Opcodes) (s t : State) : Prop := Reaches c s t ∧ t.fault = none

/-- A run that ended normally: it reached t, where an HLT set the Halted bit and no fault is recorded (R95). -/
def EndsNormally (c : Opcodes) (s t : State) : Prop := SafeRun c s t ∧ t.halted = true

end Sys2Proof.Machine
end

