-- ==== Sys2Proof/Certificates/Slice0/Obligations.lean ====
section
/-! DEFINITION. The statements for the provers, from the numbered rules of spec/. Every statement about exec names the opcode of a fault
as the byte read at pc (40_fetch_decode.md R90), so that none of them rests on the default opcode bytes (log entry 2); every statement
about decoding or stepping holds for every assignment of the opcode parameters, or for every one that meets R79. -/

open Sys2Proof Sys2Proof.Machine

/-! ## Reset and memory -/

/-- R35: the state at the start of a run, for every image a run may have; with no image it is State.reset. -/
def Obligations.BootStateHoldsResetValuesAndImage : Prop :=
  bootState [] = some State.reset ∧
    ∀ image : List Byte, image.length ≤ 256 →
      ∃ s, bootState image = some s ∧ (∀ r : Reg, r ≠ 7 → s.readReg r = 0) ∧ s.readReg 7 = 0xF4 ∧ s.sp = 0xF4 ∧ s.pc = 0 ∧
        s.flags.less = false ∧ s.flags.greater = false ∧ s.flags.equal = false ∧ s.halted = false ∧ s.fault = none ∧ s.out = [] ∧
        ∀ a : Byte, s.readByte a = image.getD a.toNat 0

/-- R170: the reset input, from any state, running, halted or faulted; and no step leaves a halted or faulted state. -/
def Obligations.ResetInputDoesNotDependOnState : Prop :=
  ∀ s : State, (∀ r : Reg, s.rst.readReg r = if r = 7 then 0xF4 else 0) ∧ s.rst.pc = 0 ∧
    s.rst.flags.less = false ∧ s.rst.flags.greater = false ∧ s.rst.flags.equal = false ∧
    s.rst.halted = false ∧ s.rst.fault = none ∧ s.rst.out = [] ∧ s.rst.Running ∧ SameMemory s s.rst ∧
    (¬s.Running → ∀ (c : Opcodes) (t : State), stepWith c s ≠ .next t)

/-- R52: MemWrite then MemRead, at the same and at every other cell, in every state (canonical or not); and the reset content of a
cell nothing has written. -/
def Obligations.MemReadReturnsLastWrite : Prop :=
  (∀ (s : State) (a v b : Byte), (s.writeByte a v).readByte b = if b = a then v else s.readByte b) ∧
    ∀ a : Byte, State.reset.readByte a = 0

/-- The model's choice of data (log entry 4): canonical memories that read alike are the same list. -/
def Obligations.CanonicalMemoriesThatReadAlikeAreEqual : Prop :=
  ∀ m n : Memory, m.wf → n.wf → (∀ a : Byte, m.read a = n.read a) → m = n

/-! ## Encoding and decoding -/

/-- R70 to R79: for every assignment that meets R79, decoding the encoding of any instruction, with any operand bytes, gives it back
and leaves the bytes after it. -/
def Obligations.DecodeOfEncodeIsTheInstruction : Prop :=
  ∀ c : Opcodes, c.Valid → ∀ (i : Instr) (rest : List Byte), decodeWith c (encodeWith c i ++ rest) = .ok i rest

/-- The other direction: what decodes is an encoding of the instruction it decodes to, under any assignment. -/
def Obligations.DecodedBytesAreTheEncoding : Prop :=
  ∀ (c : Opcodes) (bytes : List Byte) (i : Instr) (rest : List Byte),
    decodeWith c bytes = .ok i rest → bytes = encodeWith c i ++ rest ∧ (encodeWith c i).length = i.length

/-- R81: an opcode byte is rejected as unknown exactly when it is none of the 13, whatever its bits; with the defaults 243 byte
values are (the count rests on the default opcodes, log entry 2), and 0x00 and 0xFF are among them. -/
def Obligations.UnknownOpcodesAreExactlyThoseOutsideTheTable : Prop :=
  (∀ (c : Opcodes) (op : Byte) (rest : List Byte),
      decodeWith c (op :: rest) = .reject (.unknownOpcode op) ↔ op ∉ opcodeBytes c) ∧
    (∀ c : Opcodes, c.Valid → ∀ rest, decodeWith c (0xFF :: rest) = .reject (.unknownOpcode 0xFF)) ∧
    (∀ rest, decode (0x00 :: rest) = .reject (.unknownOpcode 0x00)) ∧
    ((List.range 256).filter fun n => !(opcodeBytes Config.opcodes).contains (BitVec.ofNat 8 n)).length = 243

/-- Words written out from R77 and the worked examples of 95_test_vectors.md decode to the instructions they stand for. -/
def Obligations.WrittenOutWordsDecode : Prop :=
  decode [0b10000010, 0, 8] = .ok (.ldi 0 8) [] ∧ decode [0b10100010, 0, 1] = .ok (.mul 0 1) [] ∧
    decode [0b01000111, 0] = .ok (.prn 0) [] ∧ decode [0b00000001] = .ok .hlt [] ∧
    decode [0b10100111, 0, 2] = .ok (.cmp 0 2) [] ∧ decode [0b01000101, 2] = .ok (.push 2) [] ∧
    decode [0b01010000, 1] = .ok (.call 1) [] ∧ decode [0b01010110, 3] = .ok (.jne 3) []

/-- R84: an image file whose lines are the bytes in binary, each followed by any comment, loads as those bytes in file order, and a
comment-only line is ignored. -/
def Obligations.ImageTextLoadsAsItsBytes : Prop :=
  ∀ (lines : List (Byte × List Char)) (comment : List Char),
    parseImage (lines.map fun l => imageLineOf l.1 ++ ' ' :: '#' :: l.2) = some (lines.map (·.1)) ∧
      parseImage (lines.map fun l => imageLineOf l.1) = some (lines.map (·.1)) ∧
      parseImageLine ('#' :: comment) = .skip

/-! ## The step -/

/-- R90: a running core executes the instruction the bytes at pc decode to, at that state; the step adds nothing around it, and the
step of the machine is the one with the default opcodes. -/
def Obligations.StepRunsTheDecodedInstruction : Prop :=
  (∀ (c : Opcodes) (s : State) (i : Instr) (rest : List Byte), s.Running →
      decodeWith c s.fetchWindow = .ok i rest → stepWith c s = exec i s) ∧
    ∀ s : State, step s = stepWith Config.opcodes s

/-- The bytes of an instruction in memory at pc, wherever they fit, are what a step runs (R54, R90, R91). -/
def Obligations.StepRunsTheInstructionStoredAtPc : Prop :=
  ∀ (c : Opcodes) (s : State) (i : Instr), c.Valid → s.Running → s.pc.toNat + i.length ≤ 0x100 →
    (∀ (k : Nat) (h : k < (encodeWith c i).length), s.readByte (BitVec.ofNat 8 (s.pc.toNat + k)) = (encodeWith c i)[k]) →
      stepWith c s = exec i s

/-- A word placed by withFetchWord is what the very next step runs (the model's own interface, log entry 6). -/
def Obligations.PlacedWordIsTheNextInstruction : Prop :=
  ∀ (s : State) (nbits w : Nat) (i : Instr), s.pc.toNat ≤ 0xFD → decodeTableWord nbits w = some i →
    step (s.withFetchWord nbits w) = exec i (s.withFetchWord nbits w)

/-- R30, R31, R95, R178: a running core always takes its next step, a halted or faulted one takes none, and every instruction
executes to a next state. -/
def Obligations.CoreStepsExactlyWhenRunning : Prop :=
  (∀ (c : Opcodes) (s : State), s.Running → ∃ t, stepWith c s = .next t) ∧
    (∀ (c : Opcodes) (s : State) (r : FaultRecord), s.fault = some r → stepWith c s = .fault (.faulted r)) ∧
    (∀ (c : Opcodes) (s : State), s.fault = none → s.halted = true → stepWith c s = .fault .halted) ∧
    ∀ (i : Instr) (s : State), ∃ t, exec i s = .next t

/-- R143: an opcode byte in no row raises DECODE, code 1, and changes nothing else; a run that ends so has exit status 1; 0xFF always
is such a byte, and with the defaults (log entry 2) 0x00 is. -/
def Obligations.UnknownOpcodeRaisesDecode : Prop :=
  (∀ (c : Opcodes) (s : State), s.Running → s.readByte s.pc ∉ opcodeBytes c →
      stepWith c s = .next { s with fault := some ⟨.decode, s.readByte s.pc, s.pc, 0⟩ } ∧
        ({ s with fault := some ⟨.decode, s.readByte s.pc, s.pc, 0⟩ } : State).exitStatus = some 1) ∧
    (∀ (c : Opcodes) (s : State), c.Valid → s.Running → s.readByte s.pc = 0xFF →
      stepWith c s = .next { s with fault := some ⟨.decode, 0xFF, s.pc, 0⟩ }) ∧
    ∀ s : State, s.Running → s.readByte s.pc = 0x00 → step s = .next { s with fault := some ⟨.decode, 0x00, s.pc, 0⟩ }

/-- R146 case (a), for the fetch step: operand bytes beyond 0xFF raise ADDR_RANGE before any effect. -/
def Obligations.OperandBytesBeyondMemoryRaiseAddrRange : Prop :=
  ∀ (c : Opcodes) (s : State) (row : Row), c.Valid → s.Running → row ∈ rows c → s.readByte s.pc = row.opcode →
    0xFF < s.pc.toNat + row.form.length - 1 →
      stepWith c s = .next { s with fault := some ⟨.addrRange, row.opcode, s.pc, 0⟩ }

/-- R149: the fault a step raises is the first of the eight ordered conditions that holds, and there is none when none holds; the
conditions are written from the raw bytes at pc, not from the decoder or the meanings. -/
def Obligations.StepReportsTheFirstFaultInOrder : Prop :=
  ∀ (c : Opcodes) (s t : State), c.Valid → s.Running → stepWith c s = .next t → t.fault = firstFault c s

/-- R31: the fault record names the instruction: its opcode byte, the pc the step began with, a value as R141 has it; DECODE exactly
for a byte outside the table; and it stays until reset. -/
def Obligations.FaultRecordReportsOpcodeAndAddress : Prop :=
  State.reset.fault = none ∧ (∀ s : State, s.rst.fault = none) ∧
    (∀ (c : Opcodes) (s : State) (r : FaultRecord), s.fault = some r → stepWith c s = .fault (.faulted r)) ∧
    ∀ (c : Opcodes) (s t : State) (r : FaultRecord), s.Running → stepWith c s = .next t → t.fault = some r →
      r.opcode = s.readByte s.pc ∧ r.addr = s.pc ∧ r.wf = true ∧ (r.cause = .decode ↔ r.opcode ∉ opcodeBytes c)

/-- R151: a fault leaves every other piece of state as it was, but for the fall-through ADDR_RANGE, which comes after the effects of
an instruction ending at 0xFF and leaves pc = 0x00: those effects are the ones the same instruction has at an address where it falls
through without a fault. -/
def Obligations.FaultsArePreciseButTheFallThrough : Prop :=
  ∀ (c : Opcodes) (s t : State) (r : FaultRecord), s.Running → stepWith c s = .next t → t.fault = some r →
    t = { s with fault := some r } ∨
      (r.cause = .addrRange ∧ t.pc = 0 ∧
        ∃ i rest, decodeWith c s.fetchWindow = .ok i rest ∧ s.pc.toNat + i.length = 0x100 ∧
          ∀ p : Byte, p.toNat + i.length ≤ 0xFF →
            exec i { s with pc := p } = .next { t with pc := BitVec.ofNat 8 (p.toNat + i.length), fault := none })

/-! ## The ALU instructions -/

/-- R100, whole: encoding, operand faults, the sum modulo 256 with everything else unchanged, and the fall-through at 0xFD. -/
def Obligations.AddFollowsItsRule : Prop :=
  (∀ (c : Opcodes) (ra rb : Byte), encodeWith c (.add ra rb) = [c.opcAdd, ra, rb]) ∧
    (∀ (ra rb : Byte) (s : State), OperandFaults (.add ra rb) s) ∧
    (∀ (a b : Reg) (s : State), s.pc.toNat + 3 ≤ 0xFF →
      ∃ t, exec (.add (regByte a) (regByte b)) s = .next t ∧
        (t.readReg a).toNat = ((s.readReg a).toNat + (s.readReg b).toNat) % 256 ∧ SameRegsBut [a] s t ∧
        t.pc.toNat = s.pc.toNat + 3 ∧ t = { s with regs := t.regs, pc := t.pc }) ∧
    ∀ (a b : Reg) (s : State), s.pc = 0xFD →
      ∃ t, exec (.add (regByte a) (regByte b)) s = .next t ∧
        (t.readReg a).toNat = ((s.readReg a).toNat + (s.readReg b).toNat) % 256 ∧ SameRegsBut [a] s t ∧
        t = { s with regs := t.regs, pc := 0, fault := some (faultHere s .addrRange 0) }

/-- R101, whole: as ADD with the low 8 bits of the product. -/
def Obligations.MulFollowsItsRule : Prop :=
  (∀ (c : Opcodes) (ra rb : Byte), encodeWith c (.mul ra rb) = [0xA2, ra, rb]) ∧
    (∀ (ra rb : Byte) (s : State), OperandFaults (.mul ra rb) s) ∧
    (∀ (a b : Reg) (s : State), s.pc.toNat + 3 ≤ 0xFF →
      ∃ t, exec (.mul (regByte a) (regByte b)) s = .next t ∧
        (t.readReg a).toNat = ((s.readReg a).toNat * (s.readReg b).toNat) % 256 ∧ SameRegsBut [a] s t ∧
        t.pc.toNat = s.pc.toNat + 3 ∧ t = { s with regs := t.regs, pc := t.pc }) ∧
    ∀ (a b : Reg) (s : State), s.pc = 0xFD →
      ∃ t, exec (.mul (regByte a) (regByte b)) s = .next t ∧
        (t.readReg a).toNat = ((s.readReg a).toNat * (s.readReg b).toNat) % 256 ∧ SameRegsBut [a] s t ∧
        t = { s with regs := t.regs, pc := 0, fault := some (faultHere s .addrRange 0) }

/-- R102, whole: the three flags from the unsigned comparison, nothing else but pc, and the fall-through at 0xFD. -/
def Obligations.CmpFollowsItsRule : Prop :=
  (∀ (c : Opcodes) (ra rb : Byte), encodeWith c (.cmp ra rb) = [c.opcCmp, ra, rb]) ∧
    (∀ (ra rb : Byte) (s : State), OperandFaults (.cmp ra rb) s) ∧
    (∀ (a b : Reg) (s : State), s.pc.toNat + 3 ≤ 0xFF →
      ∃ t, exec (.cmp (regByte a) (regByte b)) s = .next t ∧
        (t.flags.less = true ↔ (s.readReg a).toNat < (s.readReg b).toNat) ∧
        (t.flags.greater = true ↔ (s.readReg b).toNat < (s.readReg a).toNat) ∧
        (t.flags.equal = true ↔ s.readReg a = s.readReg b) ∧
        t.pc.toNat = s.pc.toNat + 3 ∧ t = { s with flags := t.flags, pc := t.pc }) ∧
    ∀ (a b : Reg) (s : State), s.pc = 0xFD →
      ∃ t, exec (.cmp (regByte a) (regByte b)) s = .next t ∧
        (t.flags.less = true ↔ (s.readReg a).toNat < (s.readReg b).toNat) ∧
        (t.flags.greater = true ↔ (s.readReg b).toNat < (s.readReg a).toNat) ∧
        (t.flags.equal = true ↔ s.readReg a = s.readReg b) ∧
        t = { s with flags := t.flags, pc := 0, fault := some (faultHere s .addrRange 0) }

/-! ## Data movement -/

/-- R110, whole: the immediate, any byte, in the register; the immediate is never checked. -/
def Obligations.LdiFollowsItsRule : Prop :=
  (∀ (c : Opcodes) (r imm : Byte), encodeWith c (.ldi r imm) = [0x82, r, imm]) ∧
    (∀ (r imm : Byte) (s : State), OperandFaults (.ldi r imm) s) ∧
    (∀ (q : Reg) (imm : Byte) (s : State), s.pc.toNat + 3 ≤ 0xFF →
      ∃ t, exec (.ldi (regByte q) imm) s = .next t ∧ t.readReg q = imm ∧ SameRegsBut [q] s t ∧
        t.pc.toNat = s.pc.toNat + 3 ∧ t = { s with regs := t.regs, pc := t.pc }) ∧
    ∀ (q : Reg) (imm : Byte) (s : State), s.pc = 0xFD →
      ∃ t, exec (.ldi (regByte q) imm) s = .next t ∧ t.readReg q = imm ∧ SameRegsBut [q] s t ∧
        t = { s with regs := t.regs, pc := 0, fault := some (faultHere s .addrRange 0) }

/-- R111, whole: one byte appended to the output, nothing else but pc, and the fall-through at 0xFE after the emission. -/
def Obligations.PrnFollowsItsRule : Prop :=
  (∀ (c : Opcodes) (r : Byte), encodeWith c (.prn r) = [0x47, r]) ∧
    (∀ (r : Byte) (s : State), OperandFaults (.prn r) s) ∧
    (∀ (q : Reg) (s : State), s.pc.toNat + 2 ≤ 0xFF →
      ∃ t, exec (.prn (regByte q)) s = .next t ∧ t.pc.toNat = s.pc.toNat + 2 ∧
        t = { s with out := s.out ++ [s.readReg q], pc := t.pc }) ∧
    ∀ (q : Reg) (s : State), s.pc = 0xFE →
      exec (.prn (regByte q)) s =
        .next { s with out := s.out ++ [s.readReg q], pc := 0, fault := some (faultHere s .addrRange 0) }

/-- R112, whole: halted is set, nothing else changes, no fault at any address, and no step follows. -/
def Obligations.HltFollowsItsRule : Prop :=
  (∀ c : Opcodes, encodeWith c .hlt = [0x01]) ∧
    ∀ s : State, exec .hlt s = .next { s with halted := true } ∧
      (s.fault = none → ∀ c : Opcodes, stepWith c { s with halted := true } = .fault .halted) ∧
      (∀ c : Opcodes, c.Valid → s.Running → s.readByte s.pc = 0x01 → stepWith c s = .next { s with halted := true })

/-! ## The stack -/

/-- R121 with R123's first half, whole: the store below sp and the new sp, for every register; R7 pushes the decremented value. -/
def Obligations.PushFollowsItsRule : Prop :=
  (∀ (c : Opcodes) (r : Byte), encodeWith c (.push r) = [c.opcPush, r]) ∧
    (∀ (r : Byte) (s : State), OperandFaults (.push r) s) ∧
    (∀ (q : Reg) (s : State), s.pc.toNat + 2 ≤ 0x100 → s.sp.toNat ≤ 1 → Traps (.push (regByte q)) s .stackOverflow s.sp) ∧
    (∀ (q : Reg) (s : State), s.pc.toNat + 2 ≤ 0xFF → 2 ≤ s.sp.toNat →
      ∃ t, exec (.push (regByte q)) s = .next t ∧ t.sp.toNat = s.sp.toNat - 1 ∧ SameRegsBut [7] s t ∧
        t.readByte t.sp = (if q = 7 then t.sp else s.readReg q) ∧ SameMemoryBut t.sp s t ∧
        t.pc.toNat = s.pc.toNat + 2 ∧ t = { s with regs := t.regs, mem := t.mem, pc := t.pc }) ∧
    ∀ (q : Reg) (s : State), s.pc = 0xFE → 2 ≤ s.sp.toNat →
      ∃ t, exec (.push (regByte q)) s = .next t ∧ t.sp.toNat = s.sp.toNat - 1 ∧ SameRegsBut [7] s t ∧
        t.readByte t.sp = (if q = 7 then t.sp else s.readReg q) ∧ SameMemoryBut t.sp s t ∧
        t = { s with regs := t.regs, mem := t.mem, pc := 0, fault := some (faultHere s .addrRange 0) }

/-- R122 with R123's second half, whole: the byte at sp in the register and sp + 1; POP R7 leaves the popped byte plus 1 modulo 256. -/
def Obligations.PopFollowsItsRule : Prop :=
  (∀ (c : Opcodes) (r : Byte), encodeWith c (.pop r) = [c.opcPop, r]) ∧
    (∀ (r : Byte) (s : State), OperandFaults (.pop r) s) ∧
    (∀ (q : Reg) (s : State), s.pc.toNat + 2 ≤ 0x100 → 0xF4 ≤ s.sp.toNat → Traps (.pop (regByte q)) s .stackUnderflow s.sp) ∧
    (∀ (q : Reg) (s : State), s.pc.toNat + 2 ≤ 0xFF → s.sp.toNat < 0xF4 →
      ∃ t, exec (.pop (regByte q)) s = .next t ∧ SameRegsBut [q, 7] s t ∧
        (q ≠ 7 → t.readReg q = s.readByte s.sp ∧ t.sp.toNat = s.sp.toNat + 1) ∧
        (q = 7 → t.sp.toNat = ((s.readByte s.sp).toNat + 1) % 256) ∧
        t.pc.toNat = s.pc.toNat + 2 ∧ t = { s with regs := t.regs, pc := t.pc }) ∧
    ∀ (q : Reg) (s : State), s.pc = 0xFE → s.sp.toNat < 0xF4 →
      ∃ t, exec (.pop (regByte q)) s = .next t ∧ SameRegsBut [q, 7] s t ∧
        (q ≠ 7 → t.readReg q = s.readByte s.sp ∧ t.sp.toNat = s.sp.toNat + 1) ∧
        (q = 7 → t.sp.toNat = ((s.readByte s.sp).toNat + 1) % 256) ∧
        t = { s with regs := t.regs, pc := 0, fault := some (faultHere s .addrRange 0) }

/-- R147 and R148: PUSH and CALL with sp 0 or 1, POP and RET with sp at or above 0xF4, and no other sp, raise the stack faults before
any effect, recording sp. -/
def Obligations.StackBoundsRaiseStackFaults : Prop :=
  (∀ (q : Reg) (s : State), s.pc.toNat + 2 ≤ 0x100 → s.sp.toNat ≤ 1 → Traps (.push (regByte q)) s .stackOverflow s.sp) ∧
    (∀ (q : Reg) (s : State), s.pc.toNat + 2 ≤ 0xFF → s.sp.toNat ≤ 1 → Traps (.call (regByte q)) s .stackOverflow s.sp) ∧
    (∀ (q : Reg) (s : State), s.pc.toNat + 2 ≤ 0x100 → 0xF4 ≤ s.sp.toNat → Traps (.pop (regByte q)) s .stackUnderflow s.sp) ∧
    (∀ s : State, 0xF4 ≤ s.sp.toNat → Traps .ret s .stackUnderflow s.sp) ∧
    ∀ (i : Instr) (s t : State) (r : FaultRecord), s.fault = none → exec i s = .next t → t.fault = some r →
      (r.cause = .stackOverflow → s.sp.toNat ≤ 1 ∧ r.value = s.sp ∧ ∃ b, i = .push b ∨ i = .call b) ∧
        (r.cause = .stackUnderflow → 0xF4 ≤ s.sp.toNat ∧ r.value = s.sp ∧ (i = .ret ∨ ∃ b, i = .pop b))

/-- A PUSH then a POP into another register gives the value back and restores sp (the source's property S2). -/
def Obligations.PushThenPopGivesTheValueBack : Prop :=
  ∀ (p q : Reg) (s : State), p ≠ 7 → q ≠ 7 → s.pc.toNat + 4 ≤ 0xFF → 2 ≤ s.sp.toNat → s.sp.toNat ≤ 0xF4 →
    ∃ t u, exec (.push (regByte p)) s = .next t ∧ exec (.pop (regByte q)) t = .next u ∧
      u.readReg q = s.readReg p ∧ u.sp = s.sp ∧ SameRegsBut [q] s u

/-! ## Control flow -/

/-- R130 with R135's CALL case, whole: the return address at the new sp and the jump; CALL R7 jumps to the cell that holds it. -/
def Obligations.CallFollowsItsRule : Prop :=
  (∀ (c : Opcodes) (r : Byte), encodeWith c (.call r) = [c.opcCall, r]) ∧
    (∀ (r : Byte) (s : State), OperandFaults (.call r) s) ∧
    (∀ (q : Reg) (s : State), s.pc = 0xFE → Traps (.call (regByte q)) s .addrRange 0) ∧
    (∀ (q : Reg) (s : State), s.pc.toNat + 2 ≤ 0xFF → s.sp.toNat ≤ 1 → Traps (.call (regByte q)) s .stackOverflow s.sp) ∧
    ∀ (q : Reg) (s : State), s.pc.toNat + 2 ≤ 0xFF → 2 ≤ s.sp.toNat →
      ∃ t, exec (.call (regByte q)) s = .next t ∧ t.sp.toNat = s.sp.toNat - 1 ∧ SameRegsBut [7] s t ∧
        (t.readByte t.sp).toNat = s.pc.toNat + 2 ∧ SameMemoryBut t.sp s t ∧
        t.pc = (if q = 7 then t.sp else s.readReg q) ∧ t = { s with regs := t.regs, mem := t.mem, pc := t.pc }

/-- R131, whole: pc from the byte at sp, sp + 1, nothing else; legal at every address. -/
def Obligations.RetFollowsItsRule : Prop :=
  (∀ c : Opcodes, encodeWith c .ret = [c.opcRet]) ∧
    (∀ s : State, 0xF4 ≤ s.sp.toNat → Traps .ret s .stackUnderflow s.sp) ∧
    ∀ s : State, s.sp.toNat < 0xF4 →
      ∃ t, exec .ret s = .next t ∧ t.pc = s.readByte s.sp ∧ t.sp.toNat = s.sp.toNat + 1 ∧ SameRegsBut [7] s t ∧
        t = { s with regs := t.regs, pc := t.pc }

/-- R132, whole: nothing but pc changes, to the register's byte; legal at 0xFE. -/
def Obligations.JmpFollowsItsRule : Prop :=
  (∀ (c : Opcodes) (r : Byte), encodeWith c (.jmp r) = [c.opcJmp, r]) ∧
    (∀ (r : Byte) (s : State), OperandFaults (.jmp r) s) ∧
    ∀ (q : Reg) (s : State), s.pc.toNat + 2 ≤ 0x100 → exec (.jmp (regByte q)) s = .next { s with pc := s.readReg q }

/-- R133, whole: taken when Equal is 1, otherwise pc + 2; nothing else changes. -/
def Obligations.JeqFollowsItsRule : Prop :=
  (∀ (c : Opcodes) (r : Byte), encodeWith c (.jeq r) = [c.opcJeq, r]) ∧
    (∀ (r : Byte) (s : State), OperandFaults (.jeq r) s) ∧
    (∀ (q : Reg) (s : State), s.pc.toNat + 2 ≤ 0x100 → s.flags.equal = true →
      exec (.jeq (regByte q)) s = .next { s with pc := s.readReg q }) ∧
    (∀ (q : Reg) (s : State), s.pc.toNat + 2 ≤ 0xFF → s.flags.equal = false →
      ∃ t, exec (.jeq (regByte q)) s = .next t ∧ t.pc.toNat = s.pc.toNat + 2 ∧ t = { s with pc := t.pc }) ∧
    ∀ (q : Reg) (s : State), s.pc = 0xFE → s.flags.equal = false →
      exec (.jeq (regByte q)) s = .next { s with pc := 0, fault := some (faultHere s .addrRange 0) }

/-- R134, whole: taken when Equal is 0, otherwise pc + 2; nothing else changes. -/
def Obligations.JneFollowsItsRule : Prop :=
  (∀ (c : Opcodes) (r : Byte), encodeWith c (.jne r) = [c.opcJne, r]) ∧
    (∀ (r : Byte) (s : State), OperandFaults (.jne r) s) ∧
    (∀ (q : Reg) (s : State), s.pc.toNat + 2 ≤ 0x100 → s.flags.equal = false →
      exec (.jne (regByte q)) s = .next { s with pc := s.readReg q }) ∧
    (∀ (q : Reg) (s : State), s.pc.toNat + 2 ≤ 0xFF → s.flags.equal = true →
      ∃ t, exec (.jne (regByte q)) s = .next t ∧ t.pc.toNat = s.pc.toNat + 2 ∧ t = { s with pc := t.pc }) ∧
    ∀ (q : Reg) (s : State), s.pc = 0xFE → s.flags.equal = true →
      exec (.jne (regByte q)) s = .next { s with pc := 0, fault := some (faultHere s .addrRange 0) }

/-- The source's property of CALL and RET: after a CALL, a RET at any later state that has sp and the return-address cell as the CALL
left them resumes after the CALL, with sp as before it. -/
def Obligations.ReturnResumesAfterTheCall : Prop :=
  ∀ (q : Reg) (s t u : State), s.pc.toNat + 2 ≤ 0xFF → 2 ≤ s.sp.toNat → s.sp.toNat ≤ 0xF4 →
    exec (.call (regByte q)) s = .next t → u.sp = t.sp → u.readByte u.sp = t.readByte t.sp →
      ∃ v, exec .ret u = .next v ∧ v.pc.toNat = s.pc.toNat + 2 ∧ v.sp = s.sp

/-- R62 (D8): a CALL whose store lands on its own operand byte jumps to the register that byte named when it was fetched. -/
def Obligations.CallOverwritingItsOperandUsesTheFetchedByte : Prop :=
  ∀ (c : Opcodes) (s : State) (q : Reg), c.Valid → s.Running → q ≠ 7 → s.pc.toNat + 2 ≤ 0xFF → 2 ≤ s.sp.toNat →
    s.sp.toNat = s.pc.toNat + 2 → s.readByte s.pc = c.opcCall → s.readByte (s.pc + 1) = regByte q →
      ∃ t, stepWith c s = .next t ∧ t.pc = s.readReg q ∧ (t.readByte (s.pc + 1)).toNat = s.pc.toNat + 2

/-! ## Frames: what each instruction leaves unchanged, in every next state, a trapped one too -/

/-- ADD, MUL and LDI: only the destination register; no flag, no memory byte, no output, not halted. -/
def Obligations.AddMulLdiFrame : Prop :=
  ∀ (i : Instr) (d : Byte) (s t : State), ((∃ b, i = .add d b) ∨ (∃ b, i = .mul d b) ∨ ∃ imm, i = .ldi d imm) →
    exec i s = .next t →
      (∀ q : Reg, regByte q ≠ d → t.readReg q = s.readReg q) ∧ t.flags = s.flags ∧ SameMemory s t ∧ t.out = s.out ∧
        t.halted = s.halted ∧ FaultKeptOrHere s t

/-- CMP, PRN, HLT, JMP, JEQ and JNE: no register and no memory byte; flags by CMP only, output by PRN only, halted by HLT only. -/
def Obligations.NoRegisterWrittenFrame : Prop :=
  ∀ (i : Instr) (s t : State),
    ((∃ a b, i = .cmp a b) ∨ (∃ r, i = .prn r) ∨ i = .hlt ∨ (∃ r, i = .jmp r) ∨ (∃ r, i = .jeq r) ∨ ∃ r, i = .jne r) →
    exec i s = .next t →
      SameRegsBut [] s t ∧ SameMemory s t ∧ ((∀ a b, i ≠ .cmp a b) → t.flags = s.flags) ∧
        ((∀ r, i ≠ .prn r) → t.out = s.out) ∧ (i ≠ .hlt → t.halted = s.halted) ∧ FaultKeptOrHere s t

/-- POP and RET: the destination register and sp; no flag, no memory byte, no output, not halted. -/
def Obligations.PopRetFrame : Prop :=
  ∀ (i : Instr) (s t : State), ((∃ r, i = .pop r) ∨ i = .ret) → exec i s = .next t →
    (∀ q : Reg, q ≠ 7 → (∀ r, i = .pop r → regByte q ≠ r) → t.readReg q = s.readReg q) ∧ t.flags = s.flags ∧ SameMemory s t ∧
      t.out = s.out ∧ t.halted = s.halted ∧ FaultKeptOrHere s t

/-- PUSH and CALL: sp, and the one byte at the address they store to, computed by the function the meanings use; a form that stores
nothing leaves all of memory. -/
def Obligations.PushCallFrame : Prop :=
  ∀ (i : Instr) (s t : State), ((∃ r, i = .push r) ∨ ∃ r, i = .call r) → exec i s = .next t →
    SameRegsBut [7] s t ∧ t.flags = s.flags ∧ t.out = s.out ∧ t.halted = s.halted ∧ FaultKeptOrHere s t ∧
      (∀ a, storeAddr i s = some a → a = s.pushSlot ∧ SameMemoryBut a s t) ∧ (storeAddr i s = none → SameMemory s t)

/-! ## Whole-machine rules -/

/-- R28: no instruction but CMP writes a flag, and CMP writes all three; and no instruction reads Less or Greater (R28 marks that
sentence as derived): with other values there, it does the same, and leaves them unless it writes them. -/
def Obligations.FlagsAreWrittenByCmpAndOnlyEqualIsRead : Prop :=
  (∀ (i : Instr) (s t : State), exec i s = .next t → (∀ a b, i ≠ .cmp a b) → t.flags = s.flags) ∧
    (∀ (a b : Reg) (s : State), s.pc.toNat + 3 ≤ 0x100 →
      ∃ t, exec (.cmp (regByte a) (regByte b)) s = .next t ∧ t.flags.exactlyOne = true) ∧
    (∀ (i : Instr) (s t : State) (l g : Bool), exec i s = .next t →
      ∃ t', exec i { s with flags := ⟨l, g, s.flags.equal⟩ } = .next t' ∧ { t' with flags := t.flags } = t ∧
        t'.flags.equal = t.flags.equal) ∧
    ∀ (i : Instr) (s t : State) (f : Flags), (∀ r, i ≠ .jeq r) → (∀ r, i ≠ .jne r) → exec i s = .next t →
      ∃ t', exec i { s with flags := f } = .next t' ∧ { t' with flags := t.flags } = t

/-- R27: at most one flag is 1 always; only a CMP changes the flags, so all are 0 from reset until the first CMP; a CMP that executes
leaves exactly one, and once exactly one is 1 it stays so for ever. -/
def Obligations.FlagsStayExclusive : Prop :=
  State.reset.flags = ⟨false, false, false⟩ ∧
    ∀ (c : Opcodes) (s t : State), stepWith c s = .next t →
      (s.flags.atMostOne = true → t.flags.atMostOne = true) ∧ (s.flags.exactlyOne = true → t.flags.exactlyOne = true) ∧
        (t.flags ≠ s.flags → ∃ a b rest, decodeWith c s.fetchWindow = .ok (.cmp a b) rest) ∧
        ∀ a b rest, decodeWith c s.fetchWindow = .ok (.cmp a b) rest → (Instr.cmp a b).wf = true → t.flags.exactlyOne = true

/-- R30: halted is 0 after reset, HLT alone writes it, only to 1, no instruction reads it, a halted core takes no step, and only reset
clears it. -/
def Obligations.HaltedIsSetByHltAndNeverRead : Prop :=
  State.reset.halted = false ∧ (∀ s : State, s.rst.halted = false) ∧
    (∀ (i : Instr) (s t : State), exec i s = .next t → t.halted = (s.halted || decide (i = .hlt))) ∧
    (∀ (i : Instr) (s t : State) (h : Bool), exec i s = .next t →
      exec i { s with halted := h } = .next { t with halted := h || decide (i = .hlt) }) ∧
    ∀ (c : Opcodes) (s t : State), s.halted = true → stepWith c s ≠ .next t

/-- R33: a step appends to the output the byte its PRN emits and nothing else, and never reads the stream: with another stream it does
the same. -/
def Obligations.OutputIsAppendedByPrnAndNeverReadBack : Prop :=
  State.reset.out = [] ∧
    ∀ (c : Opcodes) (s t : State), stepWith c s = .next t →
      ∃ emitted : List Byte, t.out = s.out ++ emitted ∧
        (∀ i rest, decodeWith c s.fetchWindow = .ok i rest → emitted = (emission i s).toList) ∧
        ((∀ r rest, decodeWith c s.fetchWindow ≠ .ok (.prn r) rest) → emitted = []) ∧
        ∀ o : List Byte, stepWith c { s with out := o } = .next { t with out := o ++ emitted }

/-- R51, R56, R62: the memory after a step is the memory before it with the step's accesses applied in order; the accesses are reads
at pc, pc + 1, pc + 2 and then at most one access, a write at sp - 1 or a read at sp. -/
def Obligations.AccessesOfAStepAccountForMemory : Prop :=
  ∀ (c : Opcodes) (s t : State), stepWith c s = .next t →
    t.mem = (stepAccesses c s).foldl Access.apply s.mem ∧
      ∃ n data, n ≤ 3 ∧ stepAccesses c s = fetchAccesses s n ++ data ∧
        (data = [] ∨ (∃ v, data = [.write s.pushSlot v]) ∨ data = [.read s.sp])

/-- R124: a push stores to cells 0x01 to 0xFE, so no step ever changes cell 0x00 or cell 0xFF. -/
def Obligations.FirstAndLastCellAreNeverWritten : Prop :=
  ∀ (c : Opcodes) (s t : State), stepWith c s = .next t → t.readByte 0x00 = s.readByte 0x00 ∧ t.readByte 0xFF = s.readByte 0xFF

/-- R65: the byte a PUSH or CALL stores is what the next fetch at that address sees, as an opcode or as an operand byte. -/
def Obligations.StoredByteIsSeenByTheNextFetch : Prop :=
  ∀ (i : Instr) (s t : State) (a v : Byte), .write a v ∈ dataAccess i s → exec i s = .next t →
    (t.pc = a → t.fetchWindow[0]? = some v) ∧
      (t.pc.toNat + 1 = a.toNat → t.fetchWindow[1]? = some v) ∧ (t.pc.toNat + 2 = a.toNat → t.fetchWindow[2]? = some v)

/-- R141, R142: the exit status is the cause code after a fault and 0 after HLT; the codes are 1, 3, 4, 5, 6, 7. -/
def Obligations.ExitStatusIsTheCauseCode : Prop :=
  (∀ (s : State) (r : FaultRecord), s.fault = some r → s.exitStatus = some r.cause.code) ∧
    (∀ s : State, s.fault = none → s.halted = true → s.exitStatus = some 0) ∧
    (∀ s : State, s.Running → s.exitStatus = none) ∧
    FaultCause.code .decode = 1 ∧ FaultCause.code .aluUnsupported = 3 ∧ FaultCause.code .regIndex = 4 ∧
    FaultCause.code .addrRange = 5 ∧ FaultCause.code .stackOverflow = 6 ∧ FaultCause.code .stackUnderflow = 7

/-- R36: the status ports: halted, fault_valid, the 3-bit cause code (0 when there is no fault) and the fields of the record. -/
def Obligations.StatusPortsShowHaltedAndFault : Prop :=
  (∀ s : State, s.fault = none → s.statusPorts = ⟨s.halted, false, 0, none, none, none⟩) ∧
    ∀ (s : State) (r : FaultRecord), s.fault = some r →
      s.statusPorts.halted = s.halted ∧ s.statusPorts.faultValid = true ∧ s.statusPorts.faultCause.toNat = r.cause.code ∧
        s.statusPorts.faultOpcode = some r.opcode ∧ s.statusPorts.faultAddr = some r.addr ∧
        s.statusPorts.faultValue = some r.value

/-! ## The invariant and runs -/

/-- The invariant holds at reset. -/
def Obligations.ResetMeetsTheInvariant : Prop := State.reset.Inv

/-- The invariant holds at the start of every run, whatever the image. -/
def Obligations.EveryBootStateMeetsTheInvariant : Prop :=
  ∀ (image : List Byte) (s : State), bootState image = some s → s.Inv

/-- Every step keeps the invariant, from every state that meets it, under every assignment of the opcode parameters. -/
def Obligations.StepKeepsTheInvariant : Prop :=
  ∀ (c : Opcodes) (s t : State), s.Inv → stepWith c s = .next t → t.Inv

/-- Every state of every run meets the invariant; what a run has emitted stays, and cells 0x00 and 0xFF keep what they held. -/
def Obligations.RunsKeepTheInvariantAndTheOutput : Prop :=
  ∀ (c : Opcodes) (s t : State), s.Inv → Reaches c s t →
    t.Inv ∧ s.out <+: t.out ∧ t.readByte 0x00 = s.readByte 0x00 ∧ t.readByte 0xFF = s.readByte 0xFF

/-- R95: a run of the machine that has stopped is normal, with HLT at pc, or abnormal, with a fault record, never both, and no state
follows it. -/
def Obligations.RunsEndInExactlyOneWay : Prop :=
  ∀ (c : Opcodes) (image : List Byte) (s t : State), bootState image = some s → Reaches c s t → ¬t.Running →
    ((t.halted = true ∧ t.fault = none ∧ t.readByte t.pc = 0x01 ∧ stepWith c t = .fault .halted) ∨
      (t.halted = false ∧ ∃ r, t.fault = some r ∧ r.cause ≠ .aluUnsupported ∧ stepWith c t = .fault (.faulted r))) ∧
      ∀ u, Reaches c t u → u = t

/-- One emission at most a step: k steps of the machine emit at most k bytes, after what was emitted before. core steps with the
default opcode bytes (log entry 2). -/
def Obligations.RunOfKStepsEmitsAtMostKBytes : Prop :=
  ∀ (k : Nat) (s t : State), Sys2Proof.core.run k s = .next t → ∃ emitted : List Byte, emitted.length ≤ k ∧ t.out = s.out ++ emitted

/-- R112: the pc of a halted core is at an HLT byte, as an invariant that every step keeps together with the machine's own, from every
state that meets both, under every assignment of the opcode parameters. -/
def Obligations.StepKeepsTheInvariantAndHaltedAtAnHltByte : Prop :=
  ∀ (c : Opcodes) (s t : State), s.Inv → (s.halted = true → s.readByte s.pc = 0x01) → stepWith c s = .next t →
    t.Inv ∧ (t.halted = true → t.readByte t.pc = 0x01)
end

