-- ==== Sys2Proof/Laws/Decode.lean ====
section
/-! SUPPORT. Looking an opcode byte up in the table (30_encoding.md R77, R79, R81). -/

namespace Sys2Proof

/-- A row found has the byte looked up, and is a row of the table. -/
theorem findRow_some {c : Opcodes} {op : Byte} {row : Row} (h : findRow c op = some row) : row ∈ rows c ∧ row.opcode = op := by
  unfold findRow at h
  exact ⟨List.mem_of_find?_eq_some h, by simpa using List.find?_some h⟩

/-- No row is found exactly for a byte outside the table (R81). -/
theorem findRow_eq_none {c : Opcodes} {op : Byte} : findRow c op = none ↔ op ∉ opcodeBytes c := by
  simp [findRow, opcodeBytes, List.find?_eq_none]

theorem find_by_distinct_key {l : List Row} {row : Row} (hd : (l.map Row.opcode).Nodup) (h : row ∈ l) :
    l.find? (fun x => x.opcode == row.opcode) = some row := by
  induction l with
  | nil => cases h
  | cons x rest ih =>
    simp only [List.map_cons, List.nodup_cons, List.mem_map] at hd
    rcases List.mem_cons.1 h with rfl | h
    · simp
    · have hne : x.opcode ≠ row.opcode := fun e => hd.1 ⟨row, h, e.symm⟩
      simp [hne, ih hd.2 h]

/-- Under an assignment that meets R79 every row is found by its opcode byte. -/
theorem findRow_of_mem {c : Opcodes} (hv : c.Valid) {row : Row} (h : row ∈ rows c) : findRow c row.opcode = some row :=
  find_by_distinct_key hv.1 h

/-- The defaults meet R79. -/
theorem defaultOpcodes_valid : Config.opcodes.Valid := by decide

end Sys2Proof
end

