-- ==== Sys2Proof/Laws/State.lean ====
section
/-! SUPPORT. One lemma for each field under each update of the state, true by rfl, and the reads of a register, of a byte and of the
origin after each update. -/

namespace Sys2Proof.Machine

variable (s : State)

@[simp] theorem State.writeByte_regs (a v : Byte) : (s.writeByte a v).regs = s.regs := rfl
@[simp] theorem State.writeByte_pc (a v : Byte) : (s.writeByte a v).pc = s.pc := rfl
@[simp] theorem State.writeByte_flags (a v : Byte) : (s.writeByte a v).flags = s.flags := rfl
@[simp] theorem State.writeByte_halted (a v : Byte) : (s.writeByte a v).halted = s.halted := rfl
@[simp] theorem State.writeByte_fault (a v : Byte) : (s.writeByte a v).fault = s.fault := rfl
@[simp] theorem State.writeByte_out (a v : Byte) : (s.writeByte a v).out = s.out := rfl
@[simp] theorem State.writeByte_mem (a v : Byte) : (s.writeByte a v).mem = s.mem.write a v := rfl

@[simp] theorem State.writeReg_regs (r : Reg) (v : Byte) : (s.writeReg r v).regs = s.regs.set r v := rfl
@[simp] theorem State.writeReg_pc (r : Reg) (v : Byte) : (s.writeReg r v).pc = s.pc := rfl
@[simp] theorem State.writeReg_flags (r : Reg) (v : Byte) : (s.writeReg r v).flags = s.flags := rfl
@[simp] theorem State.writeReg_halted (r : Reg) (v : Byte) : (s.writeReg r v).halted = s.halted := rfl
@[simp] theorem State.writeReg_fault (r : Reg) (v : Byte) : (s.writeReg r v).fault = s.fault := rfl
@[simp] theorem State.writeReg_out (r : Reg) (v : Byte) : (s.writeReg r v).out = s.out := rfl
@[simp] theorem State.writeReg_mem (r : Reg) (v : Byte) : (s.writeReg r v).mem = s.mem := rfl

@[simp] theorem State.setSp_regs (v : Byte) : (s.setSp v).regs = s.regs.set Config.spIndex v := rfl
@[simp] theorem State.setSp_pc (v : Byte) : (s.setSp v).pc = s.pc := rfl
@[simp] theorem State.setSp_flags (v : Byte) : (s.setSp v).flags = s.flags := rfl
@[simp] theorem State.setSp_halted (v : Byte) : (s.setSp v).halted = s.halted := rfl
@[simp] theorem State.setSp_fault (v : Byte) : (s.setSp v).fault = s.fault := rfl
@[simp] theorem State.setSp_out (v : Byte) : (s.setSp v).out = s.out := rfl
@[simp] theorem State.setSp_mem (v : Byte) : (s.setSp v).mem = s.mem := rfl

@[simp] theorem State.setPc_regs (v : Byte) : (s.setPc v).regs = s.regs := rfl
@[simp] theorem State.setPc_pc (v : Byte) : (s.setPc v).pc = v := rfl
@[simp] theorem State.setPc_flags (v : Byte) : (s.setPc v).flags = s.flags := rfl
@[simp] theorem State.setPc_halted (v : Byte) : (s.setPc v).halted = s.halted := rfl
@[simp] theorem State.setPc_fault (v : Byte) : (s.setPc v).fault = s.fault := rfl
@[simp] theorem State.setPc_out (v : Byte) : (s.setPc v).out = s.out := rfl
@[simp] theorem State.setPc_mem (v : Byte) : (s.setPc v).mem = s.mem := rfl

@[simp] theorem State.setFlags_regs (f : Flags) : (s.setFlags f).regs = s.regs := rfl
@[simp] theorem State.setFlags_pc (f : Flags) : (s.setFlags f).pc = s.pc := rfl
@[simp] theorem State.setFlags_flags (f : Flags) : (s.setFlags f).flags = f := rfl
@[simp] theorem State.setFlags_halted (f : Flags) : (s.setFlags f).halted = s.halted := rfl
@[simp] theorem State.setFlags_fault (f : Flags) : (s.setFlags f).fault = s.fault := rfl
@[simp] theorem State.setFlags_out (f : Flags) : (s.setFlags f).out = s.out := rfl
@[simp] theorem State.setFlags_mem (f : Flags) : (s.setFlags f).mem = s.mem := rfl

@[simp] theorem State.halt_regs : (s.halt).regs = s.regs := rfl
@[simp] theorem State.halt_pc : (s.halt).pc = s.pc := rfl
@[simp] theorem State.halt_flags : (s.halt).flags = s.flags := rfl
@[simp] theorem State.halt_halted : (s.halt).halted = true := rfl
@[simp] theorem State.halt_fault : (s.halt).fault = s.fault := rfl
@[simp] theorem State.halt_out : (s.halt).out = s.out := rfl
@[simp] theorem State.halt_mem : (s.halt).mem = s.mem := rfl

@[simp] theorem State.emit_regs (v : Byte) : (s.emit v).regs = s.regs := rfl
@[simp] theorem State.emit_pc (v : Byte) : (s.emit v).pc = s.pc := rfl
@[simp] theorem State.emit_flags (v : Byte) : (s.emit v).flags = s.flags := rfl
@[simp] theorem State.emit_halted (v : Byte) : (s.emit v).halted = s.halted := rfl
@[simp] theorem State.emit_fault (v : Byte) : (s.emit v).fault = s.fault := rfl
@[simp] theorem State.emit_out (v : Byte) : (s.emit v).out = s.out ++ [v] := rfl
@[simp] theorem State.emit_mem (v : Byte) : (s.emit v).mem = s.mem := rfl

@[simp] theorem State.raise_regs (o : Origin) (k : FaultCause) (v : Byte) : (s.raise o k v).regs = s.regs := rfl
@[simp] theorem State.raise_pc (o : Origin) (k : FaultCause) (v : Byte) : (s.raise o k v).pc = s.pc := rfl
@[simp] theorem State.raise_flags (o : Origin) (k : FaultCause) (v : Byte) : (s.raise o k v).flags = s.flags := rfl
@[simp] theorem State.raise_halted (o : Origin) (k : FaultCause) (v : Byte) : (s.raise o k v).halted = s.halted := rfl
@[simp] theorem State.raise_fault (o : Origin) (k : FaultCause) (v : Byte) : (s.raise o k v).fault = some ⟨k, o.opcode, o.addr, v⟩ := rfl
@[simp] theorem State.raise_out (o : Origin) (k : FaultCause) (v : Byte) : (s.raise o k v).out = s.out := rfl
@[simp] theorem State.raise_mem (o : Origin) (k : FaultCause) (v : Byte) : (s.raise o k v).mem = s.mem := rfl

@[simp] theorem State.writeByte_readReg (a v : Byte) (q : Reg) : (s.writeByte a v).readReg q = s.readReg q := rfl
@[simp] theorem State.writeByte_sp (a v : Byte) : (s.writeByte a v).sp = s.sp := rfl
@[simp] theorem State.writeReg_readByte (r : Reg) (v : Byte) (x : Byte) : (s.writeReg r v).readByte x = s.readByte x := rfl
@[simp] theorem State.setSp_readByte (v : Byte) (x : Byte) : (s.setSp v).readByte x = s.readByte x := rfl
@[simp] theorem State.setPc_readReg (v : Byte) (q : Reg) : (s.setPc v).readReg q = s.readReg q := rfl
@[simp] theorem State.setPc_sp (v : Byte) : (s.setPc v).sp = s.sp := rfl
@[simp] theorem State.setPc_readByte (v : Byte) (x : Byte) : (s.setPc v).readByte x = s.readByte x := rfl
@[simp] theorem State.setFlags_readReg (f : Flags) (q : Reg) : (s.setFlags f).readReg q = s.readReg q := rfl
@[simp] theorem State.setFlags_sp (f : Flags) : (s.setFlags f).sp = s.sp := rfl
@[simp] theorem State.setFlags_readByte (f : Flags) (x : Byte) : (s.setFlags f).readByte x = s.readByte x := rfl
@[simp] theorem State.halt_readReg (q : Reg) : (s.halt).readReg q = s.readReg q := rfl
@[simp] theorem State.halt_sp : (s.halt).sp = s.sp := rfl
@[simp] theorem State.halt_readByte (x : Byte) : (s.halt).readByte x = s.readByte x := rfl
@[simp] theorem State.emit_readReg (v : Byte) (q : Reg) : (s.emit v).readReg q = s.readReg q := rfl
@[simp] theorem State.emit_sp (v : Byte) : (s.emit v).sp = s.sp := rfl
@[simp] theorem State.emit_readByte (v : Byte) (x : Byte) : (s.emit v).readByte x = s.readByte x := rfl
@[simp] theorem State.raise_readReg (o : Origin) (k : FaultCause) (v : Byte) (q : Reg) : (s.raise o k v).readReg q = s.readReg q := rfl
@[simp] theorem State.raise_sp (o : Origin) (k : FaultCause) (v : Byte) : (s.raise o k v).sp = s.sp := rfl
@[simp] theorem State.raise_readByte (o : Origin) (k : FaultCause) (v : Byte) (x : Byte) : (s.raise o k v).readByte x = s.readByte x := rfl

/-- Reading a register after writing one (R20: no register reads differently from what was last written to it). -/
@[simp] theorem State.writeReg_readReg (r q : Reg) (v : Byte) :
    (s.writeReg r v).readReg q = if q = r then v else s.readReg q := by
  unfold State.readReg State.writeReg
  by_cases h : q = r
  · subst h; simp
  · have h' : r.val ≠ q.val := fun e => h (Fin.ext e.symm)
    simp only [h, if_false, Fin.getElem_fin]
    exact Vector.getElem_set_ne r.isLt q.isLt h'

@[simp] theorem State.setSp_readReg (q : Reg) (v : Byte) :
    (s.setSp v).readReg q = if q = Config.spIndex then v else s.readReg q := s.writeReg_readReg _ _ _

@[simp] theorem State.setSp_sp (v : Byte) : (s.setSp v).sp = v := by simp [State.sp]

theorem State.writeReg_sp (r : Reg) (v : Byte) :
    (s.writeReg r v).sp = if r = Config.spIndex then v else s.sp := by
  simp only [State.sp, State.writeReg_readReg]
  split <;> split <;> simp_all

end Sys2Proof.Machine
end

