-- ==== Sys2Proof/Laws/Memory.lean ====
section
/-! SUPPORT. Reading after writing (20_memory.md R52), and that every memory operation keeps the canonical form. -/

namespace Sys2Proof.Machine

theorem Memory.find_drop_same (a : Nat) (m : Memory) : Memory.find a (Memory.drop a m) = unlistedByte := by
  induction m with
  | nil => rfl
  | cons cell rest ih =>
    by_cases h : cell.1 = a
    · simpa [Memory.drop, h] using ih
    · simpa [Memory.drop, Memory.find, h] using ih

theorem Memory.find_drop_ne {a b : Nat} (h : b ≠ a) (m : Memory) : Memory.find b (Memory.drop a m) = Memory.find b m := by
  induction m with
  | nil => rfl
  | cons cell rest ih =>
    by_cases hc : cell.1 = a
    · simp [Memory.drop, Memory.find, hc, ih, Ne.symm h]
    · simp [Memory.drop, Memory.find, hc, ih]

theorem Memory.find_insert_same (a : Nat) (v : Byte) (m : Memory) (h : ∀ cell ∈ m, cell.1 ≠ a) :
    Memory.find a (Memory.insert (a, v) m) = v := by
  induction m with
  | nil => simp [Memory.insert, Memory.find]
  | cons cell rest ih =>
    simp only [List.mem_cons, forall_eq_or_imp] at h
    unfold Memory.insert
    split
    · simp [Memory.find]
    · simp [Memory.find, h.1, ih h.2]

theorem Memory.find_insert_ne {a b : Nat} (h : b ≠ a) (v : Byte) (m : Memory) :
    Memory.find b (Memory.insert (a, v) m) = Memory.find b m := by
  induction m with
  | nil => simp [Memory.insert, Memory.find, Ne.symm h]
  | cons cell rest ih =>
    unfold Memory.insert
    split
    · simp [Memory.find, Ne.symm h]
    · simp [Memory.find, ih]

theorem Memory.mem_drop {a : Nat} {m : Memory} {cell : Host.Cell} :
    cell ∈ Memory.drop a m ↔ cell ∈ m ∧ cell.1 ≠ a := by
  induction m with
  | nil => simp [Memory.drop]
  | cons c rest ih =>
    by_cases h : c.1 = a
    · simp only [Memory.drop, h, if_true, ih, List.mem_cons]
      constructor
      · rintro ⟨h1, h2⟩; exact ⟨.inr h1, h2⟩
      · rintro ⟨rfl | h1, h2⟩
        · exact absurd h h2
        · exact ⟨h1, h2⟩
    · simp only [Memory.drop, h, if_false, List.mem_cons, ih]
      constructor
      · rintro (rfl | ⟨h1, h2⟩)
        · exact ⟨.inl rfl, h⟩
        · exact ⟨.inr h1, h2⟩
      · rintro ⟨rfl | h1, h2⟩
        · exact .inl rfl
        · exact .inr ⟨h1, h2⟩

theorem Memory.mem_insert {new cell : Host.Cell} {m : Memory} :
    cell ∈ Memory.insert new m ↔ cell = new ∨ cell ∈ m := by
  induction m with
  | nil => simp [Memory.insert]
  | cons c rest ih =>
    unfold Memory.insert
    split
    · simp
    · simp only [List.mem_cons, ih]; tauto

/-- Reading one byte after storing one (R52), in every memory, canonical or not. -/
theorem Memory.read_write (m : Memory) (a v b : Byte) :
    (m.write a v).read b = if b = a then v else m.read b := by
  unfold Memory.write Memory.read
  by_cases h : b = a
  · subst h
    by_cases hv : v = unlistedByte
    · simp [hv, Memory.find_drop_same]
    · simp only [hv, if_false, if_true]
      exact Memory.find_insert_same _ _ _ fun cell hc => (Memory.mem_drop.1 hc).2
  · have hn : b.toNat ≠ a.toNat := fun e => h (BitVec.eq_of_toNat_eq e)
    by_cases hv : v = unlistedByte
    · simp [hv, h, Memory.find_drop_ne hn]
    · simp [hv, h, Memory.find_insert_ne hn, Memory.find_drop_ne hn]

@[simp] theorem State.writeByte_readByte (s : State) (a v b : Byte) :
    (s.writeByte a v).readByte b = if b = a then v else s.readByte b := Memory.read_write s.mem a v b

@[simp] theorem Memory.read_nil (a : Byte) : Memory.read [] a = unlistedByte := rfl

theorem Memory.wf_nil : Memory.wf [] := by simp [Memory.wf]

theorem Memory.drop_wf {m : Memory} (a : Nat) (h : m.wf) : Memory.wf (Memory.drop a m) := by
  refine ⟨?_, fun cell hc => h.2 cell (Memory.mem_drop.1 hc).1⟩
  have hp := h.1
  clear h
  induction m with
  | nil => exact .nil
  | cons c rest ih =>
    rw [List.pairwise_cons] at hp
    by_cases hc : c.1 = a
    · simpa [Memory.drop, hc] using ih hp.2
    · simp only [Memory.drop, hc, if_false, List.pairwise_cons]
      exact ⟨fun x hx => hp.1 x (Memory.mem_drop.1 hx).1, ih hp.2⟩

theorem Memory.insert_wf {m : Memory} {new : Host.Cell} (h : m.wf) (hk : new.1 < Config.memSize)
    (hv : new.2 ≠ unlistedByte) (hn : ∀ cell ∈ m, cell.1 ≠ new.1) : Memory.wf (Memory.insert new m) := by
  refine ⟨?_, fun cell hc => ?_⟩
  · have hp := h.1
    clear h
    induction m with
    | nil => simp [Memory.insert]
    | cons c rest ih =>
      rw [List.pairwise_cons] at hp
      simp only [List.mem_cons, forall_eq_or_imp] at hn
      unfold Memory.insert
      split
      · rename_i hlt
        simp only [List.pairwise_cons, List.mem_cons, forall_eq_or_imp]
        exact ⟨⟨hlt, fun x hx => hlt.trans (hp.1 x hx)⟩, hp.1, hp.2⟩
      · rename_i hge
        simp only [List.pairwise_cons]
        refine ⟨fun x hx => ?_, ih hn.2 hp.2⟩
        rcases Memory.mem_insert.1 hx with rfl | hx
        · have := hn.1; omega
        · exact hp.1 x hx
  · rcases Memory.mem_insert.1 hc with rfl | hc
    · exact ⟨hk, hv⟩
    · exact h.2 cell hc

/-- A store keeps the canonical form. -/
theorem Memory.write_wf {m : Memory} (a v : Byte) (h : m.wf) : (m.write a v).wf := by
  unfold Memory.write
  split
  · exact Memory.drop_wf _ h
  · rename_i hv
    exact Memory.insert_wf (Memory.drop_wf _ h) a.isLt hv fun cell hc => (Memory.mem_drop.1 hc).2

/-- Loading bytes keeps the canonical form. -/
theorem Memory.storeFrom_wf {m : Memory} (a : Nat) (bytes : List Byte) (h : m.wf) : (m.storeFrom a bytes).wf := by
  induction bytes generalizing m a with
  | nil => exact h
  | cons b rest ih =>
    unfold Memory.storeFrom
    split
    · exact ih _ (Memory.write_wf _ _ h)
    · exact h

/-- Reading a byte after loading bytes that fit: the loaded byte where one lies, what was there elsewhere (R172, R173). -/
theorem Memory.read_storeFrom (m : Memory) (a : Nat) (bytes : List Byte) (b : Byte) (h : a + bytes.length ≤ 256) :
    (m.storeFrom a bytes).read b =
      if a ≤ b.toNat ∧ b.toNat < a + bytes.length then bytes.getD (b.toNat - a) 0 else m.read b := by
  induction bytes generalizing m a with
  | nil =>
    simp [Memory.storeFrom]
  | cons v rest ih =>
    simp only [List.length_cons] at h ⊢
    have ha : a < Config.memSize := by simp only [Config.memSize]; omega
    simp only [Memory.storeFrom, ha, if_true]
    rw [ih _ _ (by omega), Memory.read_write]
    have hb : b = BitVec.ofNat 8 a ↔ b.toNat = a := by
      constructor
      · rintro rfl; simp; omega
      · intro e; apply BitVec.eq_of_toNat_eq; simp [e]; omega
    simp only [hb]
    by_cases h1 : b.toNat = a
    · have : ¬(a + 1 ≤ b.toNat ∧ b.toNat < a + 1 + rest.length) := by omega
      simp only [h1, if_true]
      have : (a ≤ a ∧ a < a + (rest.length + 1)) := by omega
      simp [this]
    · by_cases h2 : a + 1 ≤ b.toNat ∧ b.toNat < a + 1 + rest.length
      · have h3 : a ≤ b.toNat ∧ b.toNat < a + (rest.length + 1) := by omega
        have h4 : b.toNat - a = (b.toNat - (a + 1)) + 1 := by omega
        simp only [h2, h3, and_self, if_true, h4, List.getD_cons_succ]
      · have h3 : ¬(a ≤ b.toNat ∧ b.toNat < a + (rest.length + 1)) := by omega
        simp only [h2, h3, h1, if_false]

end Sys2Proof.Machine
end

