-- ==== Sys2Proof/Laws/Ops.lean ====
section
/-! SUPPORT. What each shared operation can do, said once: advancing pc, the checks, and the operand forms. -/

namespace Sys2Proof.Machine

/-! ## Advance (R93) -/

theorem State.advance_fit (s : State) (o : Origin) (n : Nat) (h : o.addr.toNat + n ≤ 0xFF) :
    s.advance o n = s.setPc (BitVec.ofNat 8 (o.addr.toNat + n)) := if_pos h

theorem State.advance_over (s : State) (o : Origin) (n : Nat) (h : 0xFF < o.addr.toNat + n) :
    s.advance o n = (s.setPc 0x00).raise o .addrRange 0x00 := if_neg (by omega)

/-- Everything Advance can do. -/
theorem State.advance_cases (s : State) (o : Origin) (n : Nat) :
    (o.addr.toNat + n ≤ 0xFF ∧ s.advance o n = { s with pc := BitVec.ofNat 8 (o.addr.toNat + n) }) ∨
      (0xFF < o.addr.toNat + n ∧
        s.advance o n = { s with pc := 0x00, fault := some ⟨.addrRange, o.opcode, o.addr, 0x00⟩ }) := by
  by_cases h : o.addr.toNat + n ≤ 0xFF
  · exact .inl ⟨h, s.advance_fit o n h⟩
  · exact .inr ⟨by omega, s.advance_over o n (by omega)⟩

section
variable (s : State) (o : Origin) (n : Nat)

@[simp] theorem State.advance_regs : (s.advance o n).regs = s.regs := by unfold State.advance; split <;> rfl
@[simp] theorem State.advance_flags : (s.advance o n).flags = s.flags := by unfold State.advance; split <;> rfl
@[simp] theorem State.advance_halted : (s.advance o n).halted = s.halted := by unfold State.advance; split <;> rfl
@[simp] theorem State.advance_out : (s.advance o n).out = s.out := by unfold State.advance; split <;> rfl
@[simp] theorem State.advance_mem : (s.advance o n).mem = s.mem := by unfold State.advance; split <;> rfl
@[simp] theorem State.advance_readReg (q : Reg) : (s.advance o n).readReg q = s.readReg q := by
  unfold State.advance; split <;> rfl
@[simp] theorem State.advance_sp : (s.advance o n).sp = s.sp := s.advance_readReg o n _
@[simp] theorem State.advance_readByte (a : Byte) : (s.advance o n).readByte a = s.readByte a := by
  unfold State.advance; split <;> rfl

theorem State.advance_fault :
    (s.advance o n).fault = if o.addr.toNat + n ≤ 0xFF then s.fault else some ⟨.addrRange, o.opcode, o.addr, 0x00⟩ := by
  unfold State.advance; split <;> rfl

end

@[simp] theorem State.origin_opcode (s : State) : s.origin.opcode = s.readByte s.pc := rfl
@[simp] theorem State.origin_addr (s : State) : s.origin.addr = s.pc := rfl

/-! ## Register operands (R75) -/

@[simp] theorem regByte_toNat (q : Reg) : (regByte q).toNat = q.val := by
  unfold regByte; simp; omega

theorem regByte_inj {p q : Reg} : regByte p = regByte q ↔ p = q := by
  constructor
  · intro h; exact Fin.ext (by simpa using congrArg BitVec.toNat h)
  · rintro rfl; rfl

@[simp] theorem operandReg_regByte (q : Reg) : operandReg (regByte q) = some q := by
  simp [operandReg, q.isLt]

theorem operandReg_eq_some {b : Byte} {q : Reg} : operandReg b = some q ↔ b = regByte q := by
  constructor
  · intro h
    unfold operandReg at h
    split at h
    · cases h; exact BitVec.eq_of_toNat_eq (by simp)
    · cases h
  · rintro rfl; simp

theorem operandReg_eq_none {b : Byte} : operandReg b = none ↔ 7 < b.toNat := by
  unfold operandReg; split <;> simp <;> omega

theorem regByte_cases (b : Byte) : (∃ q, b = regByte q) ∨ 7 < b.toNat := by
  rcases h : operandReg b with _ | q
  · exact .inr (operandReg_eq_none.1 h)
  · exact .inl ⟨q, operandReg_eq_some.1 h⟩

@[simp] theorem regOk_regByte (q : Reg) : regOk (regByte q) = true := by
  simp [regOk]; omega

/-! ## The checks (R145 to R148) -/

theorem spReset_toNat : Config.spReset.toNat = 0xF4 := rfl

section
variable (s : State)

theorem State.guardFetch_fit {n : Nat} (body : Result) (h : s.pc.toNat + n ≤ 0x100) : s.guardFetch n body = body :=
  if_neg (by omega)

theorem State.guardFetch_over {n : Nat} (body : Result) (h : 0x100 < s.pc.toNat + n) :
    s.guardFetch n body = .next (s.raise s.origin .addrRange 0x00) := if_pos (by omega)

@[simp] theorem State.guardReg_regByte (q : Reg) (body : Reg → Result) : s.guardReg (regByte q) body = body q := by
  simp [State.guardReg]

theorem State.guardReg_bad {b : Byte} (body : Reg → Result) (h : 7 < b.toNat) :
    s.guardReg b body = .next (s.raise s.origin .regIndex b) := by
  simp [State.guardReg, operandReg_eq_none.2 h]

theorem State.guardPush_ok (body : Result) (h : 1 < s.sp.toNat) : s.guardPush body = body := if_neg (by omega)

theorem State.guardPush_low (body : Result) (h : s.sp.toNat ≤ 1) :
    s.guardPush body = .next (s.raise s.origin .stackOverflow s.sp) := if_pos h

theorem State.guardPop_ok (body : Result) (h : s.sp.toNat < 0xF4) : s.guardPop body = body :=
  if_neg (by rw [spReset_toNat]; omega)

theorem State.guardPop_high (body : Result) (h : 0xF4 ≤ s.sp.toNat) :
    s.guardPop body = .next (s.raise s.origin .stackUnderflow s.sp) :=
  if_pos (by rw [spReset_toNat]; omega)

theorem State.guardReturn_ok (body : Result) (h : s.pc.toNat + 2 ≤ 0xFF) : s.guardReturn body = body := if_neg (by omega)

theorem State.guardReturn_over (body : Result) (h : 0xFF < s.pc.toNat + 2) :
    s.guardReturn body = .next (s.raise s.origin .addrRange 0x00) := if_pos h

end

/-! ## The operand forms (R72 to R74) -/

section
variable {s : State}

theorem formR_ok {q : Reg} {body : Reg → Result} (h : s.pc.toNat + 2 ≤ 0x100) : formR (regByte q) s body = body q := by
  simp [formR, s.guardFetch_fit _ h]

theorem formRR_ok {a b : Reg} {body : Reg → Reg → Result} (h : s.pc.toNat + 3 ≤ 0x100) :
    formRR (regByte a) (regByte b) s body = body a b := by
  simp [formRR, s.guardFetch_fit _ h]

theorem formRI_ok {q : Reg} {body : Reg → Result} (h : s.pc.toNat + 3 ≤ 0x100) : formRI (regByte q) s body = body q := by
  simp [formRI, s.guardFetch_fit _ h]

/-- Everything format R can do: the range fault, the register fault, or the body on a register. -/
theorem formR_cases (r : Byte) (s : State) (body : Reg → Result) :
    (0x100 < s.pc.toNat + 2 ∧ formR r s body = .next (s.raise s.origin .addrRange 0x00)) ∨
      (s.pc.toNat + 2 ≤ 0x100 ∧ 7 < r.toNat ∧ formR r s body = .next (s.raise s.origin .regIndex r)) ∨
      (s.pc.toNat + 2 ≤ 0x100 ∧ ∃ q, r = regByte q ∧ formR r s body = body q) := by
  by_cases h : 0x100 < s.pc.toNat + 2
  · exact .inl ⟨h, s.guardFetch_over _ h⟩
  · have h' : s.pc.toNat + 2 ≤ 0x100 := by omega
    rcases regByte_cases r with ⟨q, rfl⟩ | hr
    · exact .inr (.inr ⟨h', q, rfl, formR_ok h'⟩)
    · exact .inr (.inl ⟨h', hr, by simp [formR, s.guardFetch_fit _ h', s.guardReg_bad _ hr]⟩)

/-- Everything format RI can do. -/
theorem formRI_cases (r : Byte) (s : State) (body : Reg → Result) :
    (0x100 < s.pc.toNat + 3 ∧ formRI r s body = .next (s.raise s.origin .addrRange 0x00)) ∨
      (s.pc.toNat + 3 ≤ 0x100 ∧ 7 < r.toNat ∧ formRI r s body = .next (s.raise s.origin .regIndex r)) ∨
      (s.pc.toNat + 3 ≤ 0x100 ∧ ∃ q, r = regByte q ∧ formRI r s body = body q) := by
  by_cases h : 0x100 < s.pc.toNat + 3
  · exact .inl ⟨h, s.guardFetch_over _ h⟩
  · have h' : s.pc.toNat + 3 ≤ 0x100 := by omega
    rcases regByte_cases r with ⟨q, rfl⟩ | hr
    · exact .inr (.inr ⟨h', q, rfl, formRI_ok h'⟩)
    · exact .inr (.inl ⟨h', hr, by simp [formRI, s.guardFetch_fit _ h', s.guardReg_bad _ hr]⟩)

/-- Everything format RR can do: the register fault is of the first bad operand. -/
theorem formRR_cases (ra rb : Byte) (s : State) (body : Reg → Reg → Result) :
    (0x100 < s.pc.toNat + 3 ∧ formRR ra rb s body = .next (s.raise s.origin .addrRange 0x00)) ∨
      (s.pc.toNat + 3 ≤ 0x100 ∧ 7 < ra.toNat ∧ formRR ra rb s body = .next (s.raise s.origin .regIndex ra)) ∨
      (s.pc.toNat + 3 ≤ 0x100 ∧ ra.toNat ≤ 7 ∧ 7 < rb.toNat ∧
        formRR ra rb s body = .next (s.raise s.origin .regIndex rb)) ∨
      (s.pc.toNat + 3 ≤ 0x100 ∧ ∃ a b, ra = regByte a ∧ rb = regByte b ∧ formRR ra rb s body = body a b) := by
  by_cases h : 0x100 < s.pc.toNat + 3
  · exact .inl ⟨h, s.guardFetch_over _ h⟩
  · have h' : s.pc.toNat + 3 ≤ 0x100 := by omega
    rcases regByte_cases ra with ⟨a, rfl⟩ | ha
    · rcases regByte_cases rb with ⟨b, rfl⟩ | hb
      · exact .inr (.inr (.inr ⟨h', a, b, rfl, rfl, formRR_ok h'⟩))
      · exact .inr (.inr (.inl ⟨h', by simp; omega, hb, by simp [formRR, s.guardFetch_fit _ h', s.guardReg_bad _ hb]⟩))
    · exact .inr (.inl ⟨h', ha, by simp [formRR, s.guardFetch_fit _ h', s.guardReg_bad _ ha]⟩)

end

end Sys2Proof.Machine
end

