-- ==== Sys2Proof/Laws/Exec.lean ====
section
/-! SUPPORT. Everything executing one instruction can do, said once: a precise fault under a named condition, or the instruction's own
effect. Provers cite `exec_cases` and split on the two inductives instead of unfolding the meanings. -/

namespace Sys2Proof.Machine

/-- The conditions under which an instruction raises a fault before any effect, with the cause and the value recorded. -/
inductive Trap : Instr → State → FaultCause → Byte → Prop where
  | range {i : Instr} {s : State} (h : 0x100 < s.pc.toNat + i.length) : Trap i s .addrRange 0x00
  | reg {i : Instr} {s : State} {before after : List Byte} {b : Byte} (hf : s.pc.toNat + i.length ≤ 0x100)
      (ho : i.regOperands = before ++ b :: after) (hb : ∀ x ∈ before, x.toNat ≤ 7) (h : 7 < b.toNat) : Trap i s .regIndex b
  | returnAddr {s : State} {q : Reg} (h : s.pc.toNat = 0xFE) : Trap (.call (regByte q)) s .addrRange 0x00
  | pushLow {s : State} {q : Reg} (hf : s.pc.toNat + 2 ≤ 0x100) (h : s.sp.toNat ≤ 1) :
      Trap (.push (regByte q)) s .stackOverflow s.sp
  | callLow {s : State} {q : Reg} (hf : s.pc.toNat + 2 ≤ 0xFF) (h : s.sp.toNat ≤ 1) :
      Trap (.call (regByte q)) s .stackOverflow s.sp
  | popHigh {s : State} {q : Reg} (hf : s.pc.toNat + 2 ≤ 0x100) (h : 0xF4 ≤ s.sp.toNat) :
      Trap (.pop (regByte q)) s .stackUnderflow s.sp
  | retHigh {s : State} (h : 0xF4 ≤ s.sp.toNat) : Trap .ret s .stackUnderflow s.sp

/-- The state an instruction's own effect gives, under the condition that it reaches it. -/
inductive Effect : Instr → State → State → Prop where
  | add {s : State} (a b : Reg) (hf : s.pc.toNat + 3 ≤ 0x100) : Effect (.add (regByte a) (regByte b)) s
      ((s.writeReg a (aluAdd (s.readReg a) (s.readReg b))).advance s.origin 3)
  | mul {s : State} (a b : Reg) (hf : s.pc.toNat + 3 ≤ 0x100) : Effect (.mul (regByte a) (regByte b)) s
      ((s.writeReg a (aluMul (s.readReg a) (s.readReg b))).advance s.origin 3)
  | cmp {s : State} (a b : Reg) (hf : s.pc.toNat + 3 ≤ 0x100) : Effect (.cmp (regByte a) (regByte b)) s
      ((s.setFlags (aluCompare (s.readReg a) (s.readReg b))).advance s.origin 3)
  | ldi {s : State} (q : Reg) (imm : Byte) (hf : s.pc.toNat + 3 ≤ 0x100) : Effect (.ldi (regByte q) imm) s
      ((s.writeReg q imm).advance s.origin 3)
  | prn {s : State} (q : Reg) (hf : s.pc.toNat + 2 ≤ 0x100) : Effect (.prn (regByte q)) s
      ((s.emit (s.readReg q)).advance s.origin 2)
  | hlt {s : State} : Effect .hlt s s.halt
  | push {s : State} (q : Reg) (hf : s.pc.toNat + 2 ≤ 0x100) (hs : 1 < s.sp.toNat) : Effect (.push (regByte q)) s
      (((s.setSp s.pushSlot).writeByte s.pushSlot (if q = 7 then s.pushSlot else s.readReg q)).advance s.origin 2)
  | pop {s : State} (q : Reg) (hf : s.pc.toNat + 2 ≤ 0x100) (hs : s.sp.toNat < 0xF4) : Effect (.pop (regByte q)) s
      (((s.writeReg q (s.readByte s.sp)).setSp ((if q = 7 then s.readByte s.sp else s.sp) + 1)).advance s.origin 2)
  | call {s : State} (q : Reg) (hf : s.pc.toNat + 2 ≤ 0xFF) (hs : 1 < s.sp.toNat) : Effect (.call (regByte q)) s
      (((s.setSp s.pushSlot).writeByte s.pushSlot s.returnAddr).setPc (if q = 7 then s.pushSlot else s.readReg q))
  | ret {s : State} (hs : s.sp.toNat < 0xF4) : Effect .ret s ((s.setPc (s.readByte s.sp)).setSp (s.sp + 1))
  | jmp {s : State} (q : Reg) (hf : s.pc.toNat + 2 ≤ 0x100) : Effect (.jmp (regByte q)) s (s.setPc (s.readReg q))
  | jeqTaken {s : State} (q : Reg) (hf : s.pc.toNat + 2 ≤ 0x100) (he : s.flags.equal = true) :
      Effect (.jeq (regByte q)) s (s.setPc (s.readReg q))
  | jeqNot {s : State} (q : Reg) (hf : s.pc.toNat + 2 ≤ 0x100) (he : s.flags.equal = false) :
      Effect (.jeq (regByte q)) s (s.advance s.origin 2)
  | jneTaken {s : State} (q : Reg) (hf : s.pc.toNat + 2 ≤ 0x100) (he : s.flags.equal = false) :
      Effect (.jne (regByte q)) s (s.setPc (s.readReg q))
  | jneNot {s : State} (q : Reg) (hf : s.pc.toNat + 2 ≤ 0x100) (he : s.flags.equal = true) :
      Effect (.jne (regByte q)) s (s.advance s.origin 2)

/-- A trap depends on the instruction, pc and sp alone. -/
theorem Trap.of_same {i : Instr} {s u : State} {k : FaultCause} {v : Byte} (h : Trap i s k v) (hp : u.pc = s.pc)
    (hs : u.sp = s.sp) : Trap i u k v := by
  cases h with
  | range hl => exact .range (hp ▸ hl)
  | reg hf ho hb hl => exact .reg (hp ▸ hf) ho hb hl
  | returnAddr hl => exact .returnAddr (hp ▸ hl)
  | pushLow hf hl => exact hs ▸ .pushLow (hp ▸ hf) (hs ▸ hl)
  | callLow hf hl => exact hs ▸ .callLow (hp ▸ hf) (hs ▸ hl)
  | popHigh hf hl => exact hs ▸ .popHigh (hp ▸ hf) (hs ▸ hl)
  | retHigh hl => exact hs ▸ .retHigh (hs ▸ hl)

theorem spIndex_eq : Config.spIndex = 7 := rfl

/-- The register a PUSH or CALL reads after the decrement (R123, R135). -/
theorem readReg_after_setSp (s : State) (v : Byte) (q : Reg) :
    (s.setSp v).readReg q = if q = 7 then v else s.readReg q := s.setSp_readReg q v

/-- sp after POP's register write (R123). -/
theorem sp_after_writeReg (s : State) (v : Byte) (q : Reg) :
    (s.writeReg q v).sp = if q = 7 then v else s.sp := by rw [State.writeReg_sp, spIndex_eq]

/-- An instruction that reaches its own rule answers its effect. -/
theorem exec_of_effect {i : Instr} {s t : State} (h : Effect i s t) : exec i s = .next t := by
  cases h with
  | add a b hf => exact formRR_ok hf
  | mul a b hf => exact formRR_ok hf
  | cmp a b hf => exact formRR_ok hf
  | ldi q imm hf => exact formRI_ok hf
  | prn q hf => exact formR_ok hf
  | hlt => rfl
  | push q hf hs =>
    simp only [exec, execPush, formR_ok hf, s.guardPush_ok _ hs, State.setSp_sp, readReg_after_setSp]
  | pop q hf hs =>
    simp only [exec, execPop, formR_ok hf, s.guardPop_ok _ hs, sp_after_writeReg]
  | call q hf hs =>
    simp only [exec, execCall, formR_ok (show s.pc.toNat + 2 ≤ 0x100 by omega), s.guardReturn_ok _ hf, s.guardPush_ok _ hs,
      State.setSp_sp, State.writeByte_readReg, readReg_after_setSp]
  | ret hs => exact s.guardPop_ok _ hs
  | jmp q hf => exact formR_ok hf
  | jeqTaken q hf he => simp [exec, execJeq, formR_ok hf, he]
  | jeqNot q hf he => simp [exec, execJeq, formR_ok hf, he]
  | jneTaken q hf he => simp [exec, execJne, formR_ok hf, he]
  | jneNot q hf he => simp [exec, execJne, formR_ok hf, he]

/-- An instruction under a trap condition raises that fault and changes nothing else. -/
theorem exec_of_trap {i : Instr} {s : State} {k : FaultCause} {v : Byte} (h : Trap i s k v) :
    exec i s = .next (s.raise s.origin k v) := by
  cases h with
  | range h =>
    cases i <;> simp only [Instr.length] at h
    case add ra rb => exact s.guardFetch_over _ h
    case mul ra rb => exact s.guardFetch_over _ h
    case cmp ra rb => exact s.guardFetch_over _ h
    case ldi r imm => exact s.guardFetch_over _ h
    case prn r => exact s.guardFetch_over _ h
    case hlt => have := s.pc.isLt; omega
    case push r => exact s.guardFetch_over _ h
    case pop r => exact s.guardFetch_over _ h
    case call r => exact s.guardFetch_over _ h
    case ret => have := s.pc.isLt; omega
    case jmp r => exact s.guardFetch_over _ h
    case jeq r => exact s.guardFetch_over _ h
    case jne r => exact s.guardFetch_over _ h
  | @reg _ _ before after _ hf ho hb h =>
    have two : ∀ {ra rb : Byte} {body : Reg → Reg → Result}, s.pc.toNat + 3 ≤ 0x100 → [ra, rb] = before ++ v :: after →
        formRR ra rb s body = .next (s.raise s.origin .regIndex v) := by
      intro ra rb body hf ho
      rcases before with _ | ⟨x, _ | ⟨y, l⟩⟩
      · simp only [List.nil_append, List.cons.injEq] at ho
        rcases formRR_cases ra rb s body with h1 | h1 | h1 | ⟨_, a, b, h1, _⟩
        · omega
        · rw [h1.2.2, ho.1]
        · have := ho.1 ▸ h1.2.1; omega
        · have := congrArg BitVec.toNat h1; rw [ho.1, regByte_toNat] at this; omega
      · simp only [List.cons_append, List.nil_append, List.cons.injEq] at ho
        have hx := hb x (by simp)
        rcases formRR_cases ra rb s body with h1 | h1 | h1 | ⟨_, a, b, _, h1, _⟩
        · omega
        · have := ho.1 ▸ h1.2.1; omega
        · rw [h1.2.2.2, ho.2.1]
        · have := congrArg BitVec.toNat h1; rw [ho.2.1, regByte_toNat] at this; omega
      · simp at ho
    have one : ∀ {r : Byte}, [r] = before ++ v :: after → r = v := by
      intro r ho
      rcases before with _ | ⟨x, l⟩
      · simp only [List.nil_append, List.cons.injEq] at ho; exact ho.1
      · simp at ho
    cases i <;> simp only [Instr.length, Instr.regOperands] at hf ho
    case add ra rb => exact two hf ho
    case mul ra rb => exact two hf ho
    case cmp ra rb => exact two hf ho
    case ldi r imm => cases one ho; simp [exec, execLdi, formRI, s.guardFetch_fit _ hf, s.guardReg_bad _ h]
    case hlt => simp at ho
    case ret => simp at ho
    all_goals
      cases one ho
      simp [exec, execPrn, execPush, execPop, execCall, execJmp, execJeq, execJne, formR, s.guardFetch_fit _ hf,
        s.guardReg_bad _ h]
  | @returnAddr _ q h =>
    simp only [exec, execCall, formR_ok (show s.pc.toNat + 2 ≤ 0x100 by omega),
      s.guardReturn_over _ (show 0xFF < s.pc.toNat + 2 by omega)]
  | @pushLow _ q hf h => simp only [exec, execPush, formR_ok hf, s.guardPush_low _ h]
  | @callLow _ q hf h =>
    simp only [exec, execCall, formR_ok (show s.pc.toNat + 2 ≤ 0x100 by omega), s.guardReturn_ok _ hf, s.guardPush_low _ h]
  | @popHigh _ q hf h => simp only [exec, execPop, formR_ok hf, s.guardPop_high _ h]
  | retHigh h => exact s.guardPop_high _ h

/-- Every instruction at every state is under a trap condition or reaches its own rule. -/
theorem trap_or_effect (i : Instr) (s : State) : (∃ k v, Trap i s k v) ∨ ∃ t, Effect i s t := by
  rcases Nat.lt_or_ge 0x100 (s.pc.toNat + i.length) with hf | hf
  · exact .inl ⟨_, _, .range hf⟩
  have bad : ∀ (before : List Byte) (b : Byte) (after : List Byte), i.regOperands = before ++ b :: after →
      (∀ x ∈ before, x.toNat ≤ 7) → 7 < b.toNat → (∃ k v, Trap i s k v) ∨ ∃ t, Effect i s t :=
    fun before b after ho hb h => .inl ⟨_, _, .reg hf ho hb h⟩
  have small : ∀ q : Reg, (regByte q).toNat ≤ 7 := fun q => by rw [regByte_toNat]; omega
  cases i <;> simp only [Instr.length] at hf
  case add ra rb =>
    rcases regByte_cases ra with ⟨a, rfl⟩ | ha
    · rcases regByte_cases rb with ⟨b, rfl⟩ | hb
      · exact .inr ⟨_, .add a b hf⟩
      · exact bad [regByte a] rb [] rfl (by simpa using small a) hb
    · exact bad [] ra [rb] rfl (by simp) ha
  case mul ra rb =>
    rcases regByte_cases ra with ⟨a, rfl⟩ | ha
    · rcases regByte_cases rb with ⟨b, rfl⟩ | hb
      · exact .inr ⟨_, .mul a b hf⟩
      · exact bad [regByte a] rb [] rfl (by simpa using small a) hb
    · exact bad [] ra [rb] rfl (by simp) ha
  case cmp ra rb =>
    rcases regByte_cases ra with ⟨a, rfl⟩ | ha
    · rcases regByte_cases rb with ⟨b, rfl⟩ | hb
      · exact .inr ⟨_, .cmp a b hf⟩
      · exact bad [regByte a] rb [] rfl (by simpa using small a) hb
    · exact bad [] ra [rb] rfl (by simp) ha
  case ldi r imm =>
    rcases regByte_cases r with ⟨q, rfl⟩ | hr
    · exact .inr ⟨_, .ldi q imm hf⟩
    · exact bad [] r [] rfl (by simp) hr
  case prn r =>
    rcases regByte_cases r with ⟨q, rfl⟩ | hr
    · exact .inr ⟨_, .prn q hf⟩
    · exact bad [] r [] rfl (by simp) hr
  case hlt => exact .inr ⟨_, .hlt⟩
  case push r =>
    rcases regByte_cases r with ⟨q, rfl⟩ | hr
    · by_cases hs : s.sp.toNat ≤ 1
      · exact .inl ⟨_, _, .pushLow hf hs⟩
      · exact .inr ⟨_, .push q hf (by omega)⟩
    · exact bad [] r [] rfl (by simp) hr
  case pop r =>
    rcases regByte_cases r with ⟨q, rfl⟩ | hr
    · by_cases hs : 0xF4 ≤ s.sp.toNat
      · exact .inl ⟨_, _, .popHigh hf hs⟩
      · exact .inr ⟨_, .pop q hf (by omega)⟩
    · exact bad [] r [] rfl (by simp) hr
  case call r =>
    rcases regByte_cases r with ⟨q, rfl⟩ | hr
    · by_cases ha : s.pc.toNat + 2 ≤ 0xFF
      · by_cases hs : s.sp.toNat ≤ 1
        · exact .inl ⟨_, _, .callLow ha hs⟩
        · exact .inr ⟨_, .call q ha (by omega)⟩
      · exact .inl ⟨_, _, .returnAddr (by omega)⟩
    · exact bad [] r [] rfl (by simp) hr
  case ret =>
    by_cases hs : 0xF4 ≤ s.sp.toNat
    · exact .inl ⟨_, _, .retHigh hs⟩
    · exact .inr ⟨_, .ret (by omega)⟩
  case jmp r =>
    rcases regByte_cases r with ⟨q, rfl⟩ | hr
    · exact .inr ⟨_, .jmp q hf⟩
    · exact bad [] r [] rfl (by simp) hr
  case jeq r =>
    rcases regByte_cases r with ⟨q, rfl⟩ | hr
    · cases he : s.flags.equal
      · exact .inr ⟨_, .jeqNot q hf he⟩
      · exact .inr ⟨_, .jeqTaken q hf he⟩
    · exact bad [] r [] rfl (by simp) hr
  case jne r =>
    rcases regByte_cases r with ⟨q, rfl⟩ | hr
    · cases he : s.flags.equal
      · exact .inr ⟨_, .jneTaken q hf he⟩
      · exact .inr ⟨_, .jneNot q hf he⟩
    · exact bad [] r [] rfl (by simp) hr

/-- Everything executing one instruction can do. -/
theorem exec_cases {i : Instr} {s t : State} (h : exec i s = .next t) :
    (∃ k v, Trap i s k v ∧ t = s.raise s.origin k v) ∨ Effect i s t := by
  rcases trap_or_effect i s with ⟨k, v, ht⟩ | ⟨u, hu⟩
  · rw [exec_of_trap ht] at h
    cases h
    exact .inl ⟨k, v, ht, rfl⟩
  · rw [exec_of_effect hu] at h
    cases h
    exact .inr hu

end Sys2Proof.Machine
end

