-- ==== Sys2Proof/Laws/PerInstr.lean ====
section
/-! SUPPORT. Facts of every instruction as syntax, one lemma for each constructor. -/

namespace Sys2Proof.Laws.EncodedLength

/-- The encoding has the instruction's length, 1 to 3 bytes (30_encoding.md R70, R83). -/
def Statement (i : Instr) : Prop := ∀ c : Opcodes, (encodeWith c i).length = i.length ∧ 1 ≤ i.length ∧ i.length ≤ 3

theorem add (ra rb : Byte) : Statement (.add ra rb) := fun _ => ⟨rfl, by simp [Instr.length], by simp [Instr.length]⟩
theorem mul (ra rb : Byte) : Statement (.mul ra rb) := fun _ => ⟨rfl, by simp [Instr.length], by simp [Instr.length]⟩
theorem cmp (ra rb : Byte) : Statement (.cmp ra rb) := fun _ => ⟨rfl, by simp [Instr.length], by simp [Instr.length]⟩
theorem ldi (r imm : Byte) : Statement (.ldi r imm) := fun _ => ⟨rfl, by simp [Instr.length], by simp [Instr.length]⟩
theorem prn (r : Byte) : Statement (.prn r) := fun _ => ⟨rfl, by simp [Instr.length], by simp [Instr.length]⟩
theorem hlt : Statement .hlt := fun _ => ⟨rfl, by simp [Instr.length], by simp [Instr.length]⟩
theorem push (r : Byte) : Statement (.push r) := fun _ => ⟨rfl, by simp [Instr.length], by simp [Instr.length]⟩
theorem pop (r : Byte) : Statement (.pop r) := fun _ => ⟨rfl, by simp [Instr.length], by simp [Instr.length]⟩
theorem call (r : Byte) : Statement (.call r) := fun _ => ⟨rfl, by simp [Instr.length], by simp [Instr.length]⟩
theorem ret : Statement .ret := fun _ => ⟨rfl, by simp [Instr.length], by simp [Instr.length]⟩
theorem jmp (r : Byte) : Statement (.jmp r) := fun _ => ⟨rfl, by simp [Instr.length], by simp [Instr.length]⟩
theorem jeq (r : Byte) : Statement (.jeq r) := fun _ => ⟨rfl, by simp [Instr.length], by simp [Instr.length]⟩
theorem jne (r : Byte) : Statement (.jne r) := fun _ => ⟨rfl, by simp [Instr.length], by simp [Instr.length]⟩

end Sys2Proof.Laws.EncodedLength
end

