-- ==== Sys2Proof/Laws/Step.lean ====
section
/-! SUPPORT. Everything a step can do, said once (40_fetch_decode.md R90). -/

namespace Sys2Proof.Machine

theorem stopped_eq_none {s : State} : s.stopped = none ↔ s.Running := by
  unfold State.stopped State.Running
  cases s.fault <;> cases s.halted <;> simp

/-- A step of a running core is the fetch, the decoding, and the instruction or the fault of the fetch. -/
theorem stepWith_running {c : Opcodes} {s : State} (h : s.Running) :
    stepWith c s = match decodeWith c s.fetchWindow with
      | .ok i _ => exec i s
      | .reject e => .next (s.raiseDecode e) := by
  cases hd : decodeWith c s.fetchWindow <;> simp [stepWith, stopped_eq_none.2 h, hd]

theorem stepWith_faulted {c : Opcodes} {s : State} {r : FaultRecord} (h : s.fault = some r) :
    stepWith c s = .fault (.faulted r) := by
  simp [stepWith, State.stopped, h]

theorem stepWith_halted {c : Opcodes} {s : State} (hf : s.fault = none) (h : s.halted = true) :
    stepWith c s = .fault .halted := by
  simp [stepWith, State.stopped, hf, h]

/-- Everything a step that answers a next state can do. -/
theorem stepWith_cases {c : Opcodes} {s t : State} (h : stepWith c s = .next t) :
    s.Running ∧ ((∃ e, decodeWith c s.fetchWindow = .reject e ∧ t = s.raiseDecode e) ∨
      ∃ i rest, decodeWith c s.fetchWindow = .ok i rest ∧ exec i s = .next t) := by
  by_cases hr : s.Running
  · refine ⟨hr, ?_⟩
    rw [stepWith_running hr] at h
    cases hd : decodeWith c s.fetchWindow with
    | ok i rest => rw [hd] at h; exact .inr ⟨i, rest, rfl, h⟩
    | reject e => rw [hd] at h; cases h; exact .inl ⟨e, rfl, rfl⟩
  · exfalso
    cases hs : s.stopped with
    | none => exact hr (stopped_eq_none.1 hs)
    | some f => simp [stepWith, hs] at h

/-- The fetch window holds the bytes at pc that exist, three at most. -/
theorem fetchWindow_length (s : State) : s.fetchWindow.length = min 3 (0x100 - s.pc.toNat) := by
  have := s.pc.isLt
  unfold State.fetchWindow State.operandWindow
  split
  · simp only [List.length_cons, List.length_nil]; omega
  · split <;> simp only [List.length_cons, List.length_nil] <;> omega

theorem fetchWindow_cons (s : State) : s.fetchWindow = s.readByte s.pc :: s.operandWindow := rfl

end Sys2Proof.Machine
end

