-- ==== Sys2Proof/Tests/Slice0.lean ====
section
/-! SUPPORT. Tests. Expected results are the spec's own (30_encoding.md R77 and R84, 95_test_vectors.md); the vector a test takes is
named beside it. After them, for each obligation with hypotheses, a witness: concrete states and operands that meet its hypotheses,
clause by clause, at the ends of their ranges. -/

open Sys2Proof Sys2Proof.Machine

namespace Sys2Proof.Tests

/-- The reset state with code at pc. -/
def st (pc : Byte) (code : List Byte) : State :=
  { State.reset with pc := pc, mem := Memory.storeFrom [] pc.toNat code }

/-- A view of the next state, if there is one. -/
def after {α : Type} (o : Result) (view : State → α) : Option α :=
  match o with
  | .next t => some (view t)
  | .fault _ => none
  | .refused _ => none

/-- The next state, or the reset state where there is none. -/
def nextOf (o : Result) : State := (after o id).getD State.reset

/-! ## Well-formedness: an ill-formed term for each register operand (R82) -/

theorem test_wf_refuses_rr : (Instr.add 8 0).wf = false ∧ (Instr.add 0 8).wf = false ∧ (Instr.mul 8 0).wf = false ∧
    (Instr.mul 0 8).wf = false ∧ (Instr.cmp 255 0).wf = false ∧ (Instr.cmp 0 255).wf = false := by decide
theorem test_wf_refuses_r : (Instr.prn 8).wf = false ∧ (Instr.push 8).wf = false ∧ (Instr.pop 8).wf = false ∧
    (Instr.call 8).wf = false ∧ (Instr.jmp 8).wf = false ∧ (Instr.jeq 8).wf = false ∧ (Instr.jne 8).wf = false := by decide
theorem test_wf_refuses_ldi_register : (Instr.ldi 8 0).wf = false := by decide
/-- R82: "an `LDI` immediate is always legal". -/
theorem test_wf_accepts : (Instr.ldi 7 255).wf = true ∧ (Instr.add 7 7).wf = true ∧ (Instr.prn 7).wf = true ∧
    Instr.hlt.wf = true ∧ Instr.ret.wf = true := by decide

/-! ## Decoding: one word written out for every constructor (R70 to R77) -/

theorem test_decode_add : decode [0b10100000, 1, 2] = .ok (.add 1 2) [] := by decide
theorem test_decode_mul : decode [0b10100010, 1, 2] = .ok (.mul 1 2) [] := by decide
theorem test_decode_cmp : decode [0b10100111, 1, 2] = .ok (.cmp 1 2) [] := by decide
theorem test_decode_ldi : decode [0b10000010, 1, 200, 9] = .ok (.ldi 1 200) [9] := by decide
theorem test_decode_prn : decode [0b01000111, 3] = .ok (.prn 3) [] := by decide
theorem test_decode_hlt : decode [0b00000001, 3] = .ok .hlt [3] := by decide
theorem test_decode_push : decode [0b01000101, 3] = .ok (.push 3) [] := by decide
theorem test_decode_pop : decode [0b01000110, 3] = .ok (.pop 3) [] := by decide
theorem test_decode_call : decode [0b01010000, 3] = .ok (.call 3) [] := by decide
theorem test_decode_ret : decode [0b00010001] = .ok .ret [] := by decide
theorem test_decode_jmp : decode [0b01010100, 3] = .ok (.jmp 3) [] := by decide
theorem test_decode_jeq : decode [0b01010101, 3] = .ok (.jeq 3) [] := by decide
theorem test_decode_jne : decode [0b01010110, 3] = .ok (.jne 3) [] := by decide
/-- V-DECODE rows 1 to 5: no byte outside the table is an instruction. -/
theorem test_decode_rejects_unknown : decode [0xFF] = .reject (.unknownOpcode 0xFF) ∧ decode [0] = .reject (.unknownOpcode 0) ∧
    decode [0x02] = .reject (.unknownOpcode 2) ∧ decode [0x83, 0, 0] = .reject (.unknownOpcode 0x83) ∧
    decode [0xA1, 0, 0] = .reject (.unknownOpcode 0xA1) := by decide
theorem test_decode_rejects_short : decode [0x82, 0] = .reject (.truncated 0x82) ∧ decode [0x47] = .reject (.truncated 0x47) ∧
    decode [] = .reject .noBytes := by decide
/-- The table's numbering: byte 0 is the low byte of the word, bits above nbits are 0. -/
theorem test_table_word : decodeTableWord 24 0x080082 = some (.ldi 0 8) ∧ decodeTableWord 8 0x030047 = some (.prn 0) ∧
    decodeTableWord 16 0x0747 = some (.prn 7) ∧ decodeTableWord 8 0xFF = none := by decide
theorem test_default_opcodes_valid : Config.opcodes.Valid := by decide
/-- R7: the lengths. -/
theorem test_lengths : (Instr.hlt).length = 1 ∧ (Instr.prn 0).length = 2 ∧ (Instr.add 0 0).length = 3 := by decide

/-! ## One step, on the rows of 95_test_vectors.md -/

/-- V-ADD 1: 200 + 100 wraps to 44. -/
theorem test_add_wraps : after (step ((((st 0x06 [0xA0, 0, 1]).writeReg 0 0xC8).writeReg 1 0x64)))
    (fun t => (t.readReg 0, t.readReg 1, t.pc, t.fault)) = some (0x2C, 0x64, 0x09, none) := by decide
/-- V-ADD 9: the effect, then the fall-through fault. -/
theorem test_add_at_top : after (step (((st 0xFD [0xA0, 0, 1]).writeReg 0 1).writeReg 1 2))
    (fun t => (t.readReg 0, t.pc, t.fault)) = some (3, 0, some ⟨.addrRange, 0xA0, 0xFD, 0⟩) := by decide
/-- V-MUL 4: 65025 modulo 256. -/
theorem test_mul_wraps : after (step (((st 0x10 [0xA2, 0, 1]).writeReg 0 0xFF).writeReg 1 0xFF))
    (fun t => (t.readReg 0, t.readReg 1, t.pc)) = some (1, 0xFF, 0x13) := by decide
/-- V-MUL 9: the register check. -/
theorem test_mul_reg_index : after (step (st 0x10 [0xA2, 8, 0])) (fun t => (t.pc, t.fault)) =
    some (0x10, some ⟨.regIndex, 0xA2, 0x10, 8⟩) := by decide
/-- V-CMP 5: unsigned. -/
theorem test_cmp_unsigned : after (step (((st 0x10 [0xA7, 0, 1]).writeReg 0 0x80).writeReg 1 0x7F))
    (fun t => (t.flags, t.readReg 0, t.pc)) = some (⟨false, true, false⟩, 0x80, 0x13) := by decide
/-- V-CMP 8: the old flags are replaced. -/
theorem test_cmp_replaces_flags : after (step ((((st 0x10 [0xA7, 0, 1]).writeReg 0 1).writeReg 1 2).setFlags ⟨false, false, true⟩))
    (fun t => t.flags) = some ⟨true, false, false⟩ := by decide
/-- V-LDI 7: the last place a 3-byte instruction can fall through. -/
theorem test_ldi_last_place : after (step (st 0xFC [0x82, 1, 0x22])) (fun t => (t.readReg 1, t.pc, t.fault)) =
    some (0x22, 0xFF, none) := by decide
/-- V-LDI 5: an immediate above 7 is legal. -/
theorem test_ldi_immediate : after (step (st 0x10 [0x82, 0, 9])) (fun t => (t.readReg 0, t.pc, t.fault)) =
    some (9, 0x13, none) := by decide
/-- V-PRN 6: emitted, then the fault. -/
theorem test_prn_at_top : after (step ((st 0xFE [0x47, 0]).writeReg 0 9)) (fun t => (t.out, t.pc, t.fault)) =
    some ([9], 0, some ⟨.addrRange, 0x47, 0xFE, 0⟩) := by decide
/-- V-PRN 7: the operand byte lies beyond memory. -/
theorem test_prn_beyond : after (step ((st 0xFF [0x47]).writeReg 0 9)) (fun t => (t.out, t.pc, t.fault)) =
    some ([], 0xFF, some ⟨.addrRange, 0x47, 0xFF, 0⟩) := by decide
/-- V-HLT 2. -/
theorem test_hlt_at_top : after (step (st 0xFF [0x01])) (fun t => (t.halted, t.pc, t.fault)) = some (true, 0xFF, none) := by decide
/-- V-PUSH 2: R7 pushes the decremented value. -/
theorem test_push_sp : after (step (st 0x10 [0x45, 7])) (fun t => (t.sp, t.readByte 0xF3, t.pc)) = some (0xF3, 0xF3, 0x12) := by decide
/-- V-PUSH 3: the lowest legal push. -/
theorem test_push_lowest : after (step (((st 0x10 [0x45, 0]).writeReg 0 0xAB).setSp 2)) (fun t => (t.sp, t.readByte 1, t.fault)) =
    some (1, 0xAB, none) := by decide
/-- V-POP 5: the only wrapping increment. -/
theorem test_pop_sp_wraps : after (step (((st 0x10 [0x46, 7]).setSp 0xF3).writeByte 0xF3 0xFF)) (fun t => (t.sp, t.pc, t.fault)) =
    some (0, 0x12, none) := by decide
/-- V-POP 1. -/
theorem test_pop : after (step (((st 0x05 [0x46, 3]).setSp 0xF3).writeByte 0xF3 5)) (fun t => (t.readReg 3, t.sp, t.readByte 0xF3)) =
    some (5, 0xF4, 5) := by decide
/-- V-CALL 2: CALL R7 jumps to the new sp. -/
theorem test_call_sp : after (step (st 0x06 [0x50, 7])) (fun t => (t.sp, t.readByte 0xF3, t.pc)) = some (0xF3, 8, 0xF3) := by decide
/-- V-CALL 5: the register check comes before the return-address check. -/
theorem test_call_order : after (step (st 0xFE [0x50, 8])) (fun t => (t.pc, t.sp, t.fault)) =
    some (0xFE, 0xF4, some ⟨.regIndex, 0x50, 0xFE, 8⟩) := by decide
/-- V-RET 2. -/
theorem test_ret_at_top : after (step (((st 0xFF [0x11]).setSp 0xF3).writeByte 0xF3 8)) (fun t => (t.pc, t.sp, t.fault)) =
    some (8, 0xF4, none) := by decide
/-- V-RET 3. -/
theorem test_ret_underflow : after (step (st 0 [0x11])) (fun t => (t.pc, t.sp, t.fault)) =
    some (0, 0xF4, some ⟨.stackUnderflow, 0x11, 0, 0xF4⟩) := by decide
/-- V-JMP 10 and 13. -/
theorem test_jmp : after (step (st 0xFE [0x54, 7])) (fun t => (t.pc, t.fault)) = some (0xF4, none) := by decide
/-- V-JEQ 2 and 5. -/
theorem test_jeq : after (step ((st 0x14 [0x55, 3]).writeReg 3 0x0C)) (·.pc) = some 0x16 ∧
    after (step (((st 0x14 [0x55, 3]).writeReg 3 0x0C).setFlags ⟨false, false, true⟩)) (·.pc) = some 0x0C := by decide
/-- V-JEQ 12: the operand is checked although the jump is not taken. -/
theorem test_jeq_checks : after (step ((st 0x14 [0x55, 9]).setFlags ⟨true, false, false⟩)) (·.fault) =
    some (some ⟨.regIndex, 0x55, 0x14, 9⟩) := by decide
/-- V-JNE 6 and 9. -/
theorem test_jne : after (step ((st 0x14 [0x56, 3]).writeReg 3 0x0C)) (·.pc) = some 0x0C ∧
    after (step (((st 0x14 [0x56, 3]).writeReg 3 0x0C).setFlags ⟨false, false, true⟩)) (·.pc) = some 0x16 := by decide
/-- V-DECODE 6: decode comes before any range check. -/
theorem test_decode_fault : after (step (st 0xFF [])) (fun t => (t.pc, t.fault)) =
    some (0xFF, some ⟨.decode, 0x00, 0xFF, 0⟩) := by decide
/-- S9: the first two lines of P1 as an image file, a comment-only line between them. -/
theorem test_image_text : parseImage ["10000010 # LDI R0,8".toList, "# a comment".toList, "".toList, "00001000".toList] =
    some [0x82, 0x08] ∧ parseImage ["102".toList] = none := by decide
/-- R173: the image from address 0; nothing listed for its zero bytes. -/
theorem test_boot : (bootState [0x82, 0x00, 0x08]).map (fun s => (s.mem, s.pc, s.sp)) =
    some ([(0, 0x82), (2, 0x08)], 0, 0xF4) := by decide
/-- V-PUSH 1: the accesses of the step in their order (R56). -/
theorem test_accesses : stepAccesses Config.opcodes ((st 0x03 [0x45, 2]).writeReg 2 5) =
    [.read 0x03, .read 0x04, .write 0xF3 5] := by decide
/-- Writing zero removes the entry: equal memories are equal lists. -/
theorem test_memory_canonical : ((Memory.write [] 5 9).write 3 7).write 5 0 = [(3, 7)] := by decide

/-! ## Witnesses of the obligations' hypotheses -/

/-- The reset state at an address, with another sp. -/
def stSp (pc sp : Byte) (code : List Byte) : State := (st pc code).setSp sp

theorem witness_BootStateHoldsResetValuesAndImage : ([] : List Byte).length ≤ 256 ∧ (List.replicate 256 (0xAB : Byte)).length ≤ 256 :=
  ⟨by decide, by rw [List.length_replicate]⟩
/-- A halted state, which is not running; reset leaves it. -/
theorem witness_ResetInputDoesNotDependOnState : ¬(nextOf (exec .hlt State.reset)).Running ∧
    (nextOf (exec .hlt State.reset)).rst = State.reset := ⟨(fun h => nomatch h.1), by decide⟩
theorem witness_CanonicalMemoriesThatReadAlikeAreEqual :
    Memory.wf [(0, 1), (255, 2)] ∧ ∀ a : Byte, Memory.read [(0, 1), (255, 2)] a = Memory.read [(0, 1), (255, 2)] a :=
  ⟨by decide, fun _ => rfl⟩
theorem witness_DecodeOfEncodeIsTheInstruction : Config.opcodes.Valid := by decide
theorem witness_DecodedBytesAreTheEncoding : decodeWith Config.opcodes [0x82, 7, 255, 1] = .ok (.ldi 7 255) [1] := by decide
theorem witness_UnknownOpcodesAreExactlyThoseOutsideTheTable : Config.opcodes.Valid ∧ (0x83 : Byte) ∉ opcodeBytes Config.opcodes := by
  decide
/-- ImageTextLoadsAsItsBytes has no hypothesis; its lines at the two ends of a byte's range. -/
theorem witness_ImageTextLoadsAsItsBytes : parseImage [imageLineOf 0, imageLineOf 255 ++ " # x".toList] = some [0, 255] := by decide
theorem witness_StepRunsTheDecodedInstruction : (st 0xFF [0x11]).Running ∧
    decodeWith Config.opcodes (st 0xFF [0x11]).fetchWindow = .ok .ret [] := ⟨⟨rfl, rfl⟩, by decide⟩
/-- At the last place a 3-byte instruction fits. -/
theorem witness_StepRunsTheInstructionStoredAtPc : Config.opcodes.Valid ∧ (st 0xFD [0xA0, 1, 2]).Running ∧
    (st 0xFD [0xA0, 1, 2]).pc.toNat + (Instr.add 1 2).length ≤ 0x100 ∧
    ∀ (k : Nat) (h : k < (encodeWith Config.opcodes (.add 1 2)).length),
      (st 0xFD [0xA0, 1, 2]).readByte (BitVec.ofNat 8 ((st 0xFD [0xA0, 1, 2]).pc.toNat + k)) =
        (encodeWith Config.opcodes (.add 1 2))[k] := by
  refine ⟨by decide, ⟨rfl, rfl⟩, by decide, fun k h => ?_⟩
  have : k < 3 := h
  match k, this with
  | 0, _ => rfl
  | 1, _ => rfl
  | 2, _ => rfl
theorem witness_PlacedWordIsTheNextInstruction : (st 0xFD []).pc.toNat ≤ 0xFD ∧ decodeTableWord 24 0x0201A0 = some (.add 1 2) := by decide
/-- A running, a faulted and a halted core. -/
theorem witness_CoreStepsExactlyWhenRunning : (st 0 []).Running ∧
    (nextOf (step (st 0 []))).fault = some ⟨.decode, 0, 0, 0⟩ ∧
    (nextOf (exec .hlt (st 0 []))).fault = none ∧ (nextOf (exec .hlt (st 0 []))).halted = true :=
  ⟨⟨rfl, rfl⟩, by decide⟩
/-- The three clauses: a byte of no row, 0xFF, and 0x00; at the last address, where decode comes before any range check. -/
theorem witness_UnknownOpcodeRaisesDecode : Config.opcodes.Valid ∧ (st 0xFF [0x83]).Running ∧
    (st 0xFF [0x83]).readByte (st 0xFF [0x83]).pc ∉ opcodeBytes Config.opcodes ∧
    (st 0xFF [0xFF]).Running ∧ (st 0xFF [0xFF]).readByte (st 0xFF [0xFF]).pc = 0xFF ∧
    (st 0 []).Running ∧ (st 0 []).readByte (st 0 []).pc = 0 :=
  ⟨by decide, ⟨rfl, rfl⟩, by decide, ⟨rfl, rfl⟩, by decide, ⟨rfl, rfl⟩, by decide⟩
/-- A 3-byte instruction at 0xFE and a 2-byte one at 0xFF: the first addresses where their operands lie beyond memory. -/
theorem witness_OperandBytesBeyondMemoryRaiseAddrRange : Config.opcodes.Valid ∧
    (st 0xFE [0xA2, 0]).Running ∧ (⟨"MUL", opcMul, .rr .mul⟩ : Row) ∈ rows Config.opcodes ∧
    (st 0xFE [0xA2, 0]).readByte (st 0xFE [0xA2, 0]).pc = opcMul ∧ 0xFF < (st 0xFE [0xA2, 0]).pc.toNat + (Form.rr .mul).length - 1 ∧
    (st 0xFF [0x47]).Running ∧ (⟨"PRN", opcPrn, .r .prn⟩ : Row) ∈ rows Config.opcodes ∧
    (st 0xFF [0x47]).readByte (st 0xFF [0x47]).pc = opcPrn ∧ 0xFF < (st 0xFF [0x47]).pc.toNat + (Form.r .prn).length - 1 :=
  ⟨by decide, ⟨rfl, rfl⟩, by simp [rows], by decide, by decide, ⟨rfl, rfl⟩, by simp [rows], by decide, by decide⟩
/-- A step for each of the eight conditions, and one where none holds: the fault it raises is the first that holds (V-DECODE 6,
V-PRN 7, V-ADD 8, V-ADD 7, V-CALL 4, V-PUSH 5, V-POP 3, V-LDI 8, V-LDI 7). -/
theorem witness_StepReportsTheFirstFaultInOrder : Config.opcodes.Valid ∧
    ∀ s ∈ [st 0xFF [], st 0xFF [0x47], st 0x10 [0xA0, 9, 10], st 0x10 [0xA0, 0, 8], stSp 0xFE 1 [0x50, 1], stSp 0x10 0 [0x45, 0],
        stSp 0x10 0xFF [0x46, 3], st 0xFD [0x82, 1, 0x22], st 0xFC [0x82, 1, 0x22]],
      s.Running ∧ ∃ t, stepWith Config.opcodes s = .next t := by
  refine ⟨by decide, fun s hs => ?_⟩
  simp only [List.mem_cons, List.not_mem_nil, or_false] at hs
  rcases hs with rfl | rfl | rfl | rfl | rfl | rfl | rfl | rfl | rfl <;> exact ⟨⟨rfl, rfl⟩, _, rfl⟩
theorem test_first_faults :
    [st 0xFF [], st 0xFF [0x47], st 0x10 [0xA0, 9, 10], st 0x10 [0xA0, 0, 8], stSp 0xFE 1 [0x50, 1], stSp 0x10 0 [0x45, 0],
        stSp 0x10 0xFF [0x46, 3], st 0xFD [0x82, 1, 0x22], st 0xFC [0x82, 1, 0x22]].map (firstFault Config.opcodes) =
      [some ⟨.decode, 0, 0xFF, 0⟩, some ⟨.addrRange, 0x47, 0xFF, 0⟩, some ⟨.regIndex, 0xA0, 0x10, 9⟩,
        some ⟨.regIndex, 0xA0, 0x10, 8⟩, some ⟨.addrRange, 0x50, 0xFE, 0⟩, some ⟨.stackOverflow, 0x45, 0x10, 0⟩,
        some ⟨.stackUnderflow, 0x46, 0x10, 0xFF⟩, some ⟨.addrRange, 0x82, 0xFD, 0⟩, none] := by decide
/-- FaultRecordReportsOpcodeAndAddress and FaultsArePreciseButTheFallThrough: a precise fault and a fall-through one. -/
theorem witness_FaultRecordReportsOpcodeAndAddress : (st 0 [0xFF]).Running ∧
    ∃ t r, stepWith Config.opcodes (st 0 [0xFF]) = .next t ∧ t.fault = some r := ⟨⟨rfl, rfl⟩, _, _, rfl, rfl⟩
theorem witness_FaultsArePreciseButTheFallThrough : (st 0xFD [0x82, 1, 0x22]).Running ∧
    (∃ t r, stepWith Config.opcodes (st 0xFD [0x82, 1, 0x22]) = .next t ∧ t.fault = some r ∧ t.readReg 1 = 0x22) ∧
    (0xFC : Byte).toNat + (Instr.ldi 1 0x22).length ≤ 0xFF :=
  ⟨⟨rfl, rfl⟩, ⟨_, _, rfl, rfl, by decide⟩, by decide⟩

/-- OperandFaults, as the statements of the instructions with operands use it: format RR (ADD, MUL, CMP) at 0xFE, then at 0xFD with the first and
with the second operand byte 8, and 7 before it. -/
theorem witness_OperandFaults_RR : 0x100 < (st 0xFE []).pc.toNat + (Instr.add 0 0).length ∧
    (st 0xFD []).pc.toNat + (Instr.add 8 8).length ≤ 0x100 ∧ (Instr.add 8 8).regOperands = [] ++ 8 :: [8] ∧
    (Instr.add 7 8).regOperands = [7] ++ 8 :: [] ∧ (∀ x ∈ ([7] : List Byte), x.toNat ≤ 7) ∧ 7 < (8 : Byte).toNat := by decide
/-- Format RI (LDI): the immediate is no register operand. -/
theorem witness_OperandFaults_RI : 0x100 < (st 0xFE []).pc.toNat + (Instr.ldi 0 0).length ∧
    (st 0xFD []).pc.toNat + (Instr.ldi 8 8).length ≤ 0x100 ∧ (Instr.ldi 8 8).regOperands = [] ++ 8 :: [] := by decide
/-- Format R (PRN, PUSH, POP, CALL, JMP, JEQ, JNE). -/
theorem witness_OperandFaults_R : 0x100 < (st 0xFF []).pc.toNat + (Instr.prn 0).length ∧
    (st 0xFE []).pc.toNat + (Instr.prn 8).length ≤ 0x100 ∧ (Instr.prn 8).regOperands = [] ++ 8 :: [] := by decide

/-- AddFollowsItsRule, MulFollowsItsRule, CmpFollowsItsRule, LdiFollowsItsRule: the last address that falls through, and 0xFD. -/
theorem witness_AddFollowsItsRule : (st 0xFC []).pc.toNat + 3 ≤ 0xFF ∧ (st 0xFD []).pc = 0xFD := by decide
theorem witness_MulFollowsItsRule : (st 0xFC []).pc.toNat + 3 ≤ 0xFF ∧ (st 0xFD []).pc = 0xFD := by decide
theorem witness_CmpFollowsItsRule : (st 0xFC []).pc.toNat + 3 ≤ 0xFF ∧ (st 0xFD []).pc = 0xFD := by decide
theorem witness_LdiFollowsItsRule : (st 0xFC []).pc.toNat + 3 ≤ 0xFF ∧ (st 0xFD []).pc = 0xFD := by decide
theorem witness_PrnFollowsItsRule : (st 0xFD []).pc.toNat + 2 ≤ 0xFF ∧ (st 0xFE []).pc = 0xFE := by decide
theorem witness_HltFollowsItsRule : (st 0xFF [0x01]).fault = none ∧ Config.opcodes.Valid ∧ (st 0xFF [0x01]).Running ∧
    (st 0xFF [0x01]).readByte (st 0xFF [0x01]).pc = 0x01 := ⟨rfl, by decide, ⟨rfl, rfl⟩, by decide⟩
/-- Overflow with sp 1 and 0 at 0xFE, and the two completing clauses with sp 2 and 0xFF. -/
theorem witness_PushFollowsItsRule :
    ((stSp 0xFE 1 []).pc.toNat + 2 ≤ 0x100 ∧ (stSp 0xFE 1 []).sp.toNat ≤ 1 ∧ (stSp 0xFE 0 []).sp.toNat ≤ 1) ∧
    ((stSp 0xFD 2 []).pc.toNat + 2 ≤ 0xFF ∧ 2 ≤ (stSp 0xFD 2 []).sp.toNat ∧ 2 ≤ (stSp 0xFD 0xFF []).sp.toNat) ∧
    ((stSp 0xFE 2 []).pc = 0xFE ∧ 2 ≤ (stSp 0xFE 2 []).sp.toNat) := by decide
/-- Underflow with sp 0xF4 and 0xFF, and the two completing clauses with sp 0xF3 and 0; q = 7 and q ≠ 7. -/
theorem witness_PopFollowsItsRule :
    ((stSp 0xFE 0xF4 []).pc.toNat + 2 ≤ 0x100 ∧ 0xF4 ≤ (stSp 0xFE 0xF4 []).sp.toNat ∧ 0xF4 ≤ (stSp 0xFE 0xFF []).sp.toNat) ∧
    ((stSp 0xFD 0xF3 []).pc.toNat + 2 ≤ 0xFF ∧ (stSp 0xFD 0xF3 []).sp.toNat < 0xF4 ∧ (stSp 0xFD 0 []).sp.toNat < 0xF4) ∧
    ((stSp 0xFE 0xF3 []).pc = 0xFE ∧ (stSp 0xFE 0xF3 []).sp.toNat < 0xF4) ∧ (6 : Reg) ≠ 7 := by decide
/-- The four trapping clauses are those of the PUSH, POP, CALL and RET witnesses; here a step for each half of the last clause. -/
theorem witness_StackBoundsRaiseStackFaults :
    ((stSp 0xFE 1 []).pc.toNat + 2 ≤ 0x100 ∧ (stSp 0xFE 1 []).sp.toNat ≤ 1) ∧
    ((stSp 0xFD 1 []).pc.toNat + 2 ≤ 0xFF ∧ (stSp 0xFD 1 []).sp.toNat ≤ 1) ∧
    ((stSp 0xFE 0xF4 []).pc.toNat + 2 ≤ 0x100 ∧ 0xF4 ≤ (stSp 0xFE 0xF4 []).sp.toNat) ∧ 0xF4 ≤ (stSp 0xFF 0xF4 []).sp.toNat ∧
    (∃ t r, (stSp 0xFD 1 []).fault = none ∧ exec (.call 0) (stSp 0xFD 1 []) = .next t ∧ t.fault = some r ∧ r.cause = .stackOverflow) ∧
    ∃ t r, (stSp 0xFF 0xFF []).fault = none ∧ exec .ret (stSp 0xFF 0xFF []) = .next t ∧ t.fault = some r ∧ r.cause = .stackUnderflow :=
  ⟨by decide, by decide, by decide, by decide, ⟨_, _, rfl, rfl, rfl, rfl⟩, _, _, rfl, rfl, rfl, rfl⟩
theorem witness_PushThenPopGivesTheValueBack : (0 : Reg) ≠ 7 ∧ (6 : Reg) ≠ 7 ∧ (stSp 0xFB 2 []).pc.toNat + 4 ≤ 0xFF ∧
    2 ≤ (stSp 0xFB 2 []).sp.toNat ∧ (stSp 0xFB 2 []).sp.toNat ≤ 0xF4 ∧ 2 ≤ (st 0xFB []).sp.toNat ∧ (st 0xFB []).sp.toNat ≤ 0xF4 := by
  decide
/-- The return address beyond memory, the overflow, and the completing clause, at the ends of their ranges. -/
theorem witness_CallFollowsItsRule : (st 0xFE []).pc = 0xFE ∧
    ((stSp 0xFD 1 []).pc.toNat + 2 ≤ 0xFF ∧ (stSp 0xFD 1 []).sp.toNat ≤ 1 ∧ (stSp 0xFD 0 []).sp.toNat ≤ 1) ∧
    ((stSp 0xFD 2 []).pc.toNat + 2 ≤ 0xFF ∧ 2 ≤ (stSp 0xFD 2 []).sp.toNat ∧ 2 ≤ (stSp 0xFD 0xFF []).sp.toNat) := by decide
theorem witness_RetFollowsItsRule : 0xF4 ≤ (stSp 0xFF 0xF4 []).sp.toNat ∧ (stSp 0xFF 0xF3 []).sp.toNat < 0xF4 ∧
    (stSp 0xFF 0 []).sp.toNat < 0xF4 := by decide
theorem witness_JmpFollowsItsRule : (st 0xFE []).pc.toNat + 2 ≤ 0x100 ∧ (st 0 []).pc.toNat + 2 ≤ 0x100 := by decide
/-- Taken at 0xFE, not taken at 0xFD, not taken at 0xFE. -/
theorem witness_JeqFollowsItsRule :
    (((st 0xFE []).setFlags ⟨false, false, true⟩).pc.toNat + 2 ≤ 0x100 ∧ ((st 0xFE []).setFlags ⟨false, false, true⟩).flags.equal = true) ∧
    ((st 0xFD []).pc.toNat + 2 ≤ 0xFF ∧ (st 0xFD []).flags.equal = false) ∧ (st 0xFE []).pc = 0xFE ∧ (st 0xFE []).flags.equal = false := by
  decide
theorem witness_JneFollowsItsRule : ((st 0xFE []).pc.toNat + 2 ≤ 0x100 ∧ (st 0xFE []).flags.equal = false) ∧
    (((st 0xFD []).setFlags ⟨false, false, true⟩).pc.toNat + 2 ≤ 0xFF ∧ ((st 0xFD []).setFlags ⟨false, false, true⟩).flags.equal = true) ∧
    ((st 0xFE []).setFlags ⟨false, false, true⟩).pc = 0xFE := by decide
/-- The state after the CALL is one such u (V-CALL 3). -/
theorem witness_ReturnResumesAfterTheCall : (st 0xFD []).pc.toNat + 2 ≤ 0xFF ∧ 2 ≤ (st 0xFD []).sp.toNat ∧ (st 0xFD []).sp.toNat ≤ 0xF4 ∧
    ∃ t u : State, exec (.call (regByte 1)) (st 0xFD []) = .next t ∧ u.sp = t.sp ∧ u.readByte u.sp = t.readByte t.sp :=
  ⟨by decide, by decide, by decide, _, _, rfl, rfl, rfl⟩
/-- V-CALL 7: the CALL whose store lands on its own operand byte. -/
theorem witness_CallOverwritingItsOperandUsesTheFetchedByte : Config.opcodes.Valid ∧ (stSp 0x20 0x22 [0x50, 2]).Running ∧ (2 : Reg) ≠ 7 ∧
    (stSp 0x20 0x22 [0x50, 2]).pc.toNat + 2 ≤ 0xFF ∧ 2 ≤ (stSp 0x20 0x22 [0x50, 2]).sp.toNat ∧
    (stSp 0x20 0x22 [0x50, 2]).sp.toNat = (stSp 0x20 0x22 [0x50, 2]).pc.toNat + 2 ∧
    (stSp 0x20 0x22 [0x50, 2]).readByte (stSp 0x20 0x22 [0x50, 2]).pc = Config.opcodes.opcCall ∧
    (stSp 0x20 0x22 [0x50, 2]).readByte ((stSp 0x20 0x22 [0x50, 2]).pc + 1) = regByte 2 :=
  ⟨by decide, ⟨rfl, rfl⟩, by decide⟩

/-- The frames: each named form gives a next state. -/
theorem witness_AddMulLdiFrame : (∃ t, exec (.add 7 0) (st 0xFD []) = .next t) ∧ (∃ t, exec (.mul 0 7) (st 0xFC []) = .next t) ∧
    ∃ t, exec (.ldi 7 0xFF) (st 0 []) = .next t := ⟨⟨_, rfl⟩, ⟨_, rfl⟩, _, rfl⟩
theorem witness_NoRegisterWrittenFrame : (∃ t, exec (.cmp 0 7) (st 0xFD []) = .next t) ∧ (∃ t, exec (.prn 7) (st 0xFE []) = .next t) ∧
    (∃ t, exec .hlt (st 0xFF []) = .next t) ∧ (∃ t, exec (.jmp 8) (st 0 []) = .next t) ∧ (∃ t, exec (.jeq 0) (st 0xFE []) = .next t) ∧
    (∃ t, exec (.jne 0) (st 0xFF []) = .next t) ∧ (∀ a b, Instr.hlt ≠ .cmp a b) ∧ ∀ r, Instr.hlt ≠ .prn r :=
  ⟨⟨_, rfl⟩, ⟨_, rfl⟩, ⟨_, rfl⟩, ⟨_, rfl⟩, ⟨_, rfl⟩, ⟨_, rfl⟩, (fun _ _ h => nomatch h), fun _ h => nomatch h⟩
theorem witness_PopRetFrame : (∃ t, exec (.pop 0) (stSp 0xFE 0 []) = .next t) ∧ ∃ t, exec .ret (stSp 0xFF 0xF3 []) = .next t :=
  ⟨⟨_, rfl⟩, _, rfl⟩
/-- A form that stores, at the ends of sp's range, and one that does not. -/
theorem witness_PushCallFrame : (∃ t, exec (.push 0) (stSp 0xFE 2 []) = .next t) ∧ storeAddr (.push 0) (stSp 0xFE 2 []) = some 1 ∧
    (∃ t, exec (.call 0) (stSp 0xFD 0xFF []) = .next t) ∧ storeAddr (.call 0) (stSp 0xFD 0xFF []) = some 0xFE ∧
    (∃ t, exec (.call 0) (stSp 0xFE 2 []) = .next t) ∧ storeAddr (.call 0) (stSp 0xFE 2 []) = none :=
  ⟨⟨_, rfl⟩, by decide, ⟨_, rfl⟩, by decide, ⟨_, rfl⟩, by decide⟩
theorem witness_FlagsAreWrittenByCmpAndOnlyEqualIsRead : (∃ t, exec .hlt (st 0xFF []) = .next t) ∧ (∀ a b, Instr.hlt ≠ .cmp a b) ∧
    (∀ r, Instr.hlt ≠ .jeq r) ∧ (∀ r, Instr.hlt ≠ .jne r) ∧ (st 0xFD []).pc.toNat + 3 ≤ 0x100 ∧
    ∃ t, exec (.jeq 0) (st 0 []) = .next t :=
  ⟨⟨_, rfl⟩, (fun _ _ h => nomatch h), (fun _ h => nomatch h), (fun _ h => nomatch h), by decide, _, rfl⟩
/-- A step that changes the flags, from a state where exactly one flag is 1. -/
theorem witness_FlagsStayExclusive : (∃ t, stepWith Config.opcodes ((st 0 [0xA7, 0, 1]).setFlags ⟨true, false, false⟩) = .next t ∧
      t.flags ≠ ((st 0 [0xA7, 0, 1]).setFlags ⟨true, false, false⟩).flags) ∧
    ((st 0 [0xA7, 0, 1]).setFlags ⟨true, false, false⟩).flags.exactlyOne = true ∧
    ((st 0 [0xA7, 0, 1]).setFlags ⟨true, false, false⟩).flags.atMostOne = true ∧
    decodeWith Config.opcodes ((st 0 [0xA7, 0, 1]).setFlags ⟨true, false, false⟩).fetchWindow = .ok (.cmp 0 1) [] ∧
    (Instr.cmp 0 1).wf = true :=
  ⟨⟨_, rfl, by decide⟩, by decide⟩
theorem witness_HaltedIsSetByHltAndNeverRead : (∃ t, exec .hlt (st 0xFF []) = .next t) ∧ (∃ t, exec (.prn 0) (st 0 []) = .next t) ∧
    (nextOf (exec .hlt (st 0xFF []))).halted = true := ⟨⟨_, rfl⟩, ⟨_, rfl⟩, by decide⟩
/-- A PRN step, and a step that is no PRN. -/
theorem witness_OutputIsAppendedByPrnAndNeverReadBack :
    (∃ t, stepWith Config.opcodes (st 0xFE [0x47, 7]) = .next t) ∧
    decodeWith Config.opcodes (st 0xFE [0x47, 7]).fetchWindow = .ok (.prn 7) [] ∧
    (∃ t, stepWith Config.opcodes (st 0xFF [0x01]) = .next t) ∧
    ∀ r rest, decodeWith Config.opcodes (st 0xFF [0x01]).fetchWindow ≠ .ok (.prn r) rest :=
  ⟨⟨_, rfl⟩, by decide, ⟨_, rfl⟩, fun _ _ h => nomatch h⟩
/-- A storing step at each end of the range a push can reach: cells 0x01 and 0xFE. -/
theorem witness_AccessesOfAStepAccountForMemory : (∃ t, stepWith Config.opcodes (stSp 0xFD 0xFF [0x50, 0]) = .next t) ∧
    ∃ t, stepWith Config.opcodes (stSp 0x10 2 [0x45, 0]) = .next t := ⟨⟨_, rfl⟩, _, rfl⟩
theorem witness_FirstAndLastCellAreNeverWritten : (∃ t, stepWith Config.opcodes (stSp 0xFD 0xFF [0x50, 0]) = .next t) ∧
    ∃ t, stepWith Config.opcodes (stSp 0x10 2 [0x45, 0]) = .next t := ⟨⟨_, rfl⟩, _, rfl⟩
/-- V-PUSH 7 for the opcode byte; a store on the first and on the second operand byte of the next instruction. -/
theorem witness_StoredByteIsSeenByTheNextFetch :
    (.write 0x12 1 ∈ dataAccess (.push 0) ((stSp 0x10 0x13 []).writeReg 0 1) ∧
      ∃ t, exec (.push 0) ((stSp 0x10 0x13 []).writeReg 0 1) = .next t ∧ t.pc = 0x12) ∧
    (.write 0x13 1 ∈ dataAccess (.push 0) ((stSp 0x10 0x14 []).writeReg 0 1) ∧
      ∃ t, exec (.push 0) ((stSp 0x10 0x14 []).writeReg 0 1) = .next t ∧ t.pc.toNat + 1 = (0x13 : Byte).toNat) ∧
    (.write 0x14 1 ∈ dataAccess (.push 0) ((stSp 0x10 0x15 []).writeReg 0 1) ∧
      ∃ t, exec (.push 0) ((stSp 0x10 0x15 []).writeReg 0 1) = .next t ∧ t.pc.toNat + 2 = (0x14 : Byte).toNat) :=
  ⟨⟨by decide, _, rfl, by decide⟩, ⟨by decide, _, rfl, by decide⟩, by decide, _, rfl, by decide⟩
/-- ExitStatusIsTheCauseCode and StatusPortsShowHaltedAndFault: a faulted, a halted and a running core. -/
theorem witness_ExitStatusIsTheCauseCode : (nextOf (step (st 0 [0x11]))).fault = some ⟨.stackUnderflow, 0x11, 0, 0xF4⟩ ∧
    (nextOf (exec .hlt (st 0 []))).fault = none ∧ (nextOf (exec .hlt (st 0 []))).halted = true ∧ (st 0 []).Running :=
  ⟨by decide, by decide, by decide, rfl, rfl⟩
theorem witness_StatusPortsShowHaltedAndFault : (st 0 []).fault = none ∧
    (nextOf (step (st 0 [0x11]))).fault = some ⟨.stackUnderflow, 0x11, 0, 0xF4⟩ := by decide
theorem witness_EveryBootStateMeetsTheInvariant : bootState [0x11] = some (st 0 [0x11]) := by decide
theorem witness_StepKeepsTheInvariant : (st 0xFD [0x82, 1, 0x22]).Inv ∧ ∃ t, stepWith Config.opcodes (st 0xFD [0x82, 1, 0x22]) = .next t :=
  ⟨by decide, _, rfl⟩
theorem witness_RunsKeepTheInvariantAndTheOutput : (st 0 [0x47, 7]).Inv ∧
    ∃ t, Reaches Config.opcodes (st 0 [0x47, 7]) t ∧ t.out = [0xF4] := ⟨by decide, _, .step .start rfl, by decide⟩
/-- A run that ends normally and one that ends in a fault. -/
theorem witness_RunsEndInExactlyOneWay :
    (bootState [0x01] = some (st 0 [0x01]) ∧ ∃ t, Reaches Config.opcodes (st 0 [0x01]) t ∧ ¬t.Running ∧ t.halted = true) ∧
    (bootState [] = some (st 0 []) ∧ ∃ t, Reaches Config.opcodes (st 0 []) t ∧ ¬t.Running ∧ t.fault.isSome = true) :=
  ⟨⟨by decide, _, .step .start rfl, (fun h => nomatch h.1), rfl⟩, by decide, _, .step .start rfl, (fun h => nomatch h.2), rfl⟩
theorem witness_RunOfKStepsEmitsAtMostKBytes : ∃ t, Sys2Proof.core.run 2 (st 0 [0x47, 7, 0x01]) = .next t ∧ t.out = [0xF4] :=
  ⟨_, rfl, by decide⟩
/-- The step that sets halted, at the last address; the second hypothesis is met by a core that is not halted. -/
theorem witness_StepKeepsTheInvariantAndHaltedAtAnHltByte : (st 0xFF [0x01]).Inv ∧
    ((st 0xFF [0x01]).halted = true → (st 0xFF [0x01]).readByte (st 0xFF [0x01]).pc = 0x01) ∧
    ∃ t, stepWith Config.opcodes (st 0xFF [0x01]) = .next t ∧ t.halted = true := ⟨by decide, by decide, _, rfl, rfl⟩

end Sys2Proof.Tests
end

section
/-! SUPPORT. What decoding says of the bytes it read (30_encoding.md R70 to R83) and of the bytes at pc (40_fetch_decode.md R90). -/

namespace Sys2Proof

/-- The instruction a format makes of the operand bytes it reads. -/
inductive Form.Makes : Form → List Byte → Instr → Prop where
  | z (i : Instr) : Makes (.z i) [] i
  | r (make : Byte → Instr) (b : Byte) : Makes (.r make) [b] (make b)
  | rr (make : Byte → Byte → Instr) (b1 b2 : Byte) : Makes (.rr make) [b1, b2] (make b1 b2)
  | ri (make : Byte → Byte → Instr) (b1 b2 : Byte) : Makes (.ri make) [b1, b2] (make b1 b2)

/-- Reading operands succeeds only by taking the format's bytes off the front. -/
theorem decodeOperands_ok {op : Byte} {f : Form} {bytes rest : List Byte} {i : Instr}
    (h : decodeOperands op f bytes = .ok i rest) : ∃ ops, f.Makes ops i ∧ bytes = ops ++ rest := by
  cases f with
  | z make => cases h; exact ⟨[], .z _, rfl⟩
  | r make =>
    match bytes, h with
    | b :: _, rfl => exact ⟨[b], .r make b, rfl⟩
  | rr make =>
    match bytes, h with
    | b1 :: b2 :: _, rfl => exact ⟨[b1, b2], .rr make b1 b2, rfl⟩
  | ri make =>
    match bytes, h with
    | b1 :: b2 :: _, rfl => exact ⟨[b1, b2], .ri make b1 b2, rfl⟩

/-- Reading operands fails only for want of bytes. -/
theorem decodeOperands_reject {op : Byte} {f : Form} {bytes : List Byte} {e : DecodeError}
    (h : decodeOperands op f bytes = .reject e) : e = .truncated op := by
  cases f with
  | z make => cases h
  | r make =>
    match bytes, h with
    | [], rfl => rfl
  | rr make =>
    match bytes, h with
    | [], rfl => rfl
    | [_], rfl => rfl
  | ri make =>
    match bytes, h with
    | [], rfl => rfl
    | [_], rfl => rfl

/-- A row's format makes instructions that have the row's opcode byte and the bytes read as operands. -/
theorem encodeWith_of_row {c : Opcodes} {row : Row} {ops : List Byte} {i : Instr} (hrow : row ∈ rows c)
    (hm : row.form.Makes ops i) : encodeWith c i = row.opcode :: ops := by
  simp only [rows, List.mem_cons, List.not_mem_nil, or_false] at hrow
  rcases hrow with rfl | rfl | rfl | rfl | rfl | rfl | rfl | rfl | rfl | rfl | rfl | rfl | rfl <;> cases hm <;> rfl

/-- A byte in no row is rejected as unknown (R81). -/
theorem decodeWith_of_not_mem {c : Opcodes} {op : Byte} (tail : List Byte) (hop : op ∉ opcodeBytes c) :
    decodeWith c (op :: tail) = .reject (.unknownOpcode op) := by
  simp [decodeWith, findRow_eq_none.2 hop]

/-- A byte of the table has a row, and that row's format reads the operands (R77, R83). -/
theorem decodeWith_of_mem {c : Opcodes} {op : Byte} (tail : List Byte) (hop : op ∈ opcodeBytes c) :
    ∃ row ∈ rows c, row.opcode = op ∧ decodeWith c (op :: tail) = decodeOperands op row.form tail := by
  cases hrow : findRow c op with
  | none => exact absurd hop (findRow_eq_none.1 hrow)
  | some row =>
    obtain ⟨hmem, hrowOp⟩ := findRow_some hrow
    exact ⟨row, hmem, hrowOp, by simp [decodeWith, hrow]⟩

/-- A byte that decodes is one of the table (R81). -/
theorem opcode_mem_of_decodeWith_ok {c : Opcodes} {op : Byte} {tail rest : List Byte} {i : Instr}
    (h : decodeWith c (op :: tail) = .ok i rest) : op ∈ opcodeBytes c := by
  by_contra hop
  rw [decodeWith_of_not_mem tail hop] at h
  cases h

/-- What decodes begins with the encoding of the instruction it decodes to. -/
theorem eq_encodeWith_append_of_decodeWith_ok {c : Opcodes} {bytes rest : List Byte} {i : Instr}
    (h : decodeWith c bytes = .ok i rest) : bytes = encodeWith c i ++ rest := by
  cases bytes with
  | nil => cases h
  | cons op tail =>
    obtain ⟨row, hmem, rfl, hd⟩ := decodeWith_of_mem tail (opcode_mem_of_decodeWith_ok h)
    obtain ⟨ops, hm, rfl⟩ := decodeOperands_ok (hd ▸ h)
    rw [encodeWith_of_row hmem hm, List.cons_append]

theorem encodeWith_length (c : Opcodes) (i : Instr) : (encodeWith c i).length = i.length := by
  cases i <;> rfl

/-- A byte of the table is never rejected as unknown, and the others always are (R81). -/
theorem decodeWith_reject {c : Opcodes} {op : Byte} {tail : List Byte} {e : DecodeError}
    (h : decodeWith c (op :: tail) = .reject e) :
    (op ∉ opcodeBytes c ∧ e = .unknownOpcode op) ∨ (op ∈ opcodeBytes c ∧ e = .truncated op) := by
  by_cases hop : op ∈ opcodeBytes c
  · obtain ⟨row, _, _, hd⟩ := decodeWith_of_mem tail hop
    exact .inr ⟨hop, decodeOperands_reject (hd ▸ h)⟩
  · rw [decodeWith_of_not_mem tail hop] at h
    cases h
    exact .inl ⟨hop, rfl⟩

end Sys2Proof

namespace Sys2Proof.Machine

/-- The instruction a fetch gives lies in memory whole (R146 case (a)). -/
theorem decoded_fits {c : Opcodes} {s : State} {i : Instr} {rest : List Byte}
    (h : decodeWith c s.fetchWindow = .ok i rest) : s.pc.toNat + i.length ≤ 0x100 := by
  have hlen := congrArg List.length (eq_encodeWith_append_of_decodeWith_ok h)
  rw [fetchWindow_length, List.length_append, encodeWith_length] at hlen
  have hpc := s.pc.isLt
  omega

/-- The byte at pc is the opcode byte of the instruction a fetch gives (R90). -/
theorem readByte_pc_of_decoded {c : Opcodes} {s : State} {i : Instr} {rest : List Byte}
    (h : decodeWith c s.fetchWindow = .ok i rest) : s.readByte s.pc = i.opcode c :=
  (List.cons.inj (eq_encodeWith_append_of_decodeWith_ok h)).1

/-- A fault of the fetch is raised with the value 0, as DECODE exactly for a byte outside the table (R143, R146 case (a)). -/
theorem raiseDecode_of_reject {c : Opcodes} {s : State} {e : DecodeError} (h : decodeWith c s.fetchWindow = .reject e) :
    (s.readByte s.pc ∉ opcodeBytes c ∧ s.raiseDecode e = s.raise s.origin .decode 0) ∨
      (s.readByte s.pc ∈ opcodeBytes c ∧ s.raiseDecode e = s.raise s.origin .addrRange 0) := by
  rcases decodeWith_reject h with ⟨hop, rfl⟩ | ⟨hop, rfl⟩
  · exact .inl ⟨hop, rfl⟩
  · exact .inr ⟨hop, rfl⟩

end Sys2Proof.Machine
end

section
/-! SUPPORT. What executing one instruction changes, one field at a time, and what it does not read: derived once from `exec_cases`. -/

namespace Sys2Proof.Machine

/-! ## When an instruction reaches its own rule (R90) -/

theorem operandsOk_iff {i : Instr} {s : State} :
    operandsOk i s = true ↔ s.pc.toNat + i.length ≤ 0x100 ∧ ∀ b ∈ i.regOperands, b.toNat ≤ 7 := by
  simp [operandsOk, Instr.wf, regOk]

theorem exists_regByte_of_regOk {b : Byte} (h : regOk b = true) : ∃ q, b = regByte q :=
  (regByte_cases b).resolve_right (by simpa [regOk] using h)

/-- An instruction that reaches its own rule lies in memory with legal operands (R90). -/
theorem Effect.operandsOk {i : Instr} {s t : State} (h : Effect i s t) : operandsOk i s = true := by
  have hpc := s.pc.isLt
  have hreg : ∀ q : Reg, q.val ≤ 7 := fun q => by omega
  rw [operandsOk_iff]
  cases h <;> simp only [Instr.length, Instr.regOperands, List.mem_cons, List.not_mem_nil, or_false, forall_eq_or_imp,
    forall_eq, regByte_toNat, hreg, and_self, and_true, false_imp_iff, implies_true] <;> omega

/-- An instruction that traps with legal operands traps on the stack's bounds, or on CALL's return address. -/
theorem Trap.stack_of_operandsOk {i : Instr} {s : State} {k : FaultCause} {v : Byte} (h : Trap i s k v)
    (hok : operandsOk i s = true) : (∃ r, i = .push r) ∨ (∃ r, i = .pop r) ∨ (∃ r, i = .call r) ∨ i = .ret := by
  obtain ⟨hfit, hregs⟩ := operandsOk_iff.1 hok
  cases h with
  | range hl => omega
  | reg hf ho hb hl =>
    have := hregs v (by simp [ho])
    omega
  | returnAddr hl => exact .inr (.inr (.inl ⟨_, rfl⟩))
  | pushLow hf hl => exact .inl ⟨_, rfl⟩
  | callLow hf hl => exact .inr (.inr (.inl ⟨_, rfl⟩))
  | popHigh hf hl => exact .inr (.inl ⟨_, rfl⟩)
  | retHigh hl => exact .inr (.inr (.inr rfl))

/-- Every instruction at every state answers a next state (R178). -/
theorem exec_total (i : Instr) (s : State) : ∃ t, exec i s = .next t := by
  rcases trap_or_effect i s with ⟨_, _, ht⟩ | ⟨t, ht⟩
  · exact ⟨_, exec_of_trap ht⟩
  · exact ⟨t, exec_of_effect ht⟩

/-! ## The flags, halted and the output: what is written, and that nothing but Equal is read (R28, R30, R33) -/

/-- The flags an instruction writes, if it is a CMP that reaches its own rule (R102). -/
def writtenFlags (i : Instr) (s : State) : Option Flags :=
  match i with
  | .cmp ra rb =>
    if operandsOk i s then
      (operandReg ra).bind fun a => (operandReg rb).map fun b => aluCompare (s.readReg a) (s.readReg b)
    else none
  | _ => none

theorem writtenFlags_of_ne_cmp {i : Instr} (s : State) (h : ∀ a b, i ≠ .cmp a b) : writtenFlags i s = none := by
  cases i with
  | cmp a b => exact absurd rfl (h a b)
  | _ => rfl

theorem emission_of_ne_prn {i : Instr} (s : State) (h : ∀ r, i ≠ .prn r) : emission i s = none := by
  cases i with
  | prn r => exact absurd rfl (h r)
  | _ => simp [emission]

/-- A trap comes before any effect, so it writes no flag, emits nothing and is not HLT's (R151, R112). -/
theorem Trap.writtenFlags {i : Instr} {s : State} {k : FaultCause} {v : Byte} (h : Trap i s k v) :
    writtenFlags i s = none := by
  by_cases hok : operandsOk i s = true
  · rcases h.stack_of_operandsOk hok with ⟨r, rfl⟩ | ⟨r, rfl⟩ | ⟨r, rfl⟩ | rfl <;> rfl
  · unfold Machine.writtenFlags
    split <;> simp [hok]

theorem Trap.emission {i : Instr} {s : State} {k : FaultCause} {v : Byte} (h : Trap i s k v) : emission i s = none := by
  by_cases hok : operandsOk i s = true
  · rcases h.stack_of_operandsOk hok with ⟨r, rfl⟩ | ⟨r, rfl⟩ | ⟨r, rfl⟩ | rfl <;> simp [Machine.emission]
  · simp [Machine.emission, hok]

theorem Trap.ne_hlt {i : Instr} {s : State} {k : FaultCause} {v : Byte} (h : Trap i s k v) : i ≠ .hlt := by
  rintro rfl
  have hpc := s.pc.isLt
  cases h with
  | range hl => simp only [Instr.length] at hl; omega
  | reg hf ho hb hl => simp [Instr.regOperands] at ho

/-- The state with other flags, another halted bit and another output stream. -/
def State.overlay (s : State) (f : Flags) (h : Bool) (o : List Byte) : State := { s with flags := f, halted := h, out := o }

theorem State.overlay_self (s : State) : s.overlay s.flags s.halted s.out = s := rfl

theorem State.advance_overlay (s : State) (g : Origin) (n : Nat) (f : Flags) (h : Bool) (o : List Byte) :
    (s.advance g n).overlay f h o = (s.overlay f h o).advance g n := by
  unfold State.advance
  split <;> rfl

/-- What an instruction does to a state with other flags, halted and output: the same, but for what it writes of those three. Only
Equal is read, by JEQ and JNE. -/
def State.after (t : State) (i : Instr) (s : State) (f : Flags) (h : Bool) (o : List Byte) : State :=
  t.overlay ((writtenFlags i s).getD f) (h || decide (i = .hlt)) (o ++ (emission i s).toList)

theorem State.after_of_none {i : Instr} {s : State} (t : State) (f : Flags) (h : Bool) (o : List Byte)
    (hw : writtenFlags i s = none) (hh : i ≠ .hlt) (he : emission i s = none) : t.after i s f h o = t.overlay f h o := by
  simp [State.after, hw, hh, he]

theorem Trap.after {i : Instr} {s : State} {k : FaultCause} {v : Byte} (ht : Trap i s k v) (f : Flags) (h : Bool)
    (o : List Byte) : (s.raise s.origin k v).after i s f h o = (s.overlay f h o).raise s.origin k v :=
  State.after_of_none _ f h o ht.writtenFlags ht.ne_hlt ht.emission

/-- An effect that writes none of flags, halted and output is the same whatever they hold, but for Equal in JEQ and JNE. -/
theorem Effect.overlay {i : Instr} {s t : State} (he : Effect i s t) (f : Flags) (h : Bool) (o : List Byte)
    (hf : (∃ r, i = .jeq r) ∨ (∃ r, i = .jne r) → f.equal = s.flags.equal)
    (hcmp : ∀ a b, i ≠ .cmp a b) (hprn : ∀ r, i ≠ .prn r) (hhlt : i ≠ .hlt) :
    Effect i (s.overlay f h o) (t.overlay f h o) := by
  cases he with
  | add a b hfit => rw [State.advance_overlay]; exact .add a b hfit
  | mul a b hfit => rw [State.advance_overlay]; exact .mul a b hfit
  | cmp a b => exact absurd rfl (hcmp _ _)
  | ldi q imm hfit => rw [State.advance_overlay]; exact .ldi q imm hfit
  | prn q => exact absurd rfl (hprn _)
  | hlt => exact absurd rfl hhlt
  | push q hfit hs => rw [State.advance_overlay]; exact .push q hfit hs
  | pop q hfit hs => rw [State.advance_overlay]; exact .pop q hfit hs
  | call q hfit hs => exact .call q hfit hs
  | ret hs => exact .ret hs
  | jmp q hfit => exact .jmp q hfit
  | jeqTaken q hfit heq => exact .jeqTaken q hfit ((hf (.inl ⟨_, rfl⟩)).trans heq)
  | jeqNot q hfit heq => rw [State.advance_overlay]; exact .jeqNot q hfit ((hf (.inl ⟨_, rfl⟩)).trans heq)
  | jneTaken q hfit heq => exact .jneTaken q hfit ((hf (.inr ⟨_, rfl⟩)).trans heq)
  | jneNot q hfit heq => rw [State.advance_overlay]; exact .jneNot q hfit ((hf (.inr ⟨_, rfl⟩)).trans heq)

theorem writtenFlags_cmp {s : State} {a b : Reg} (hfit : s.pc.toNat + 3 ≤ 0x100) :
    writtenFlags (.cmp (regByte a) (regByte b)) s = some (aluCompare (s.readReg a) (s.readReg b)) := by
  simp [writtenFlags, (Effect.cmp a b hfit).operandsOk]

theorem emission_prn {s : State} {q : Reg} (hfit : s.pc.toNat + 2 ≤ 0x100) :
    emission (.prn (regByte q)) s = some (s.readReg q) := by
  simp [emission, (Effect.prn q hfit).operandsOk]

theorem State.after_cmp {s : State} {a b : Reg} (t : State) (f : Flags) (h : Bool) (o : List Byte)
    (hfit : s.pc.toNat + 3 ≤ 0x100) : t.after (.cmp (regByte a) (regByte b)) s f h o =
      t.overlay (aluCompare (s.readReg a) (s.readReg b)) h o := by
  simp [State.after, writtenFlags_cmp hfit, emission]

theorem State.after_prn {s : State} {q : Reg} (t : State) (f : Flags) (h : Bool) (o : List Byte)
    (hfit : s.pc.toNat + 2 ≤ 0x100) : t.after (.prn (regByte q)) s f h o = t.overlay f h (o ++ [s.readReg q]) := by
  simp [State.after, emission_prn hfit, writtenFlags]

theorem State.after_hlt (s t : State) (f : Flags) (h : Bool) (o : List Byte) :
    t.after .hlt s f h o = t.overlay f true o := by
  simp [State.after, emission, writtenFlags]

theorem Effect.after {i : Instr} {s t : State} (he : Effect i s t) (f : Flags) (h : Bool) (o : List Byte)
    (hf : (∃ r, i = .jeq r) ∨ (∃ r, i = .jne r) → f.equal = s.flags.equal) :
    Effect i (s.overlay f h o) (t.after i s f h o) := by
  have hkeep : (∀ a b, i ≠ .cmp a b) → (∀ r, i ≠ .prn r) → i ≠ .hlt → Effect i (s.overlay f h o) (t.after i s f h o) :=
    fun hcmp hprn hhlt => by
      rw [State.after_of_none t f h o (writtenFlags_of_ne_cmp s hcmp) hhlt (emission_of_ne_prn s hprn)]
      exact he.overlay f h o hf hcmp hprn hhlt
  cases he with
  | cmp a b hfit =>
    rw [State.after_cmp _ f h o hfit, State.advance_overlay]
    exact .cmp a b hfit
  | prn q hfit =>
    rw [State.after_prn _ f h o hfit, State.advance_overlay]
    exact .prn q hfit
  | hlt =>
    rw [State.after_hlt]
    exact .hlt
  | _ => exact hkeep nofun nofun nofun

/-- With other flags, another halted bit and another output stream an instruction does the same; JEQ and JNE want the same Equal. -/
theorem exec_overlay {i : Instr} {s t : State} (he : exec i s = .next t) (f : Flags) (h : Bool) (o : List Byte)
    (hf : (∃ r, i = .jeq r) ∨ (∃ r, i = .jne r) → f.equal = s.flags.equal) :
    exec i (s.overlay f h o) = .next (t.after i s f h o) := by
  rcases exec_cases he with ⟨k, v, ht, rfl⟩ | heff
  · rw [ht.after]
    exact exec_of_trap (ht.of_same rfl rfl)
  · exact exec_of_effect (heff.after f h o hf)

/-- An instruction's own effect on the three, read off the state it was executed in. -/
theorem exec_eq_after {i : Instr} {s t : State} (he : exec i s = .next t) : t = t.after i s s.flags s.halted s.out := by
  have hself := exec_overlay he s.flags s.halted s.out fun _ => rfl
  rw [State.overlay_self, he] at hself
  injection hself

theorem exec_flags {i : Instr} {s t : State} (he : exec i s = .next t) : t.flags = (writtenFlags i s).getD s.flags :=
  congrArg State.flags (exec_eq_after he)

theorem exec_halted {i : Instr} {s t : State} (he : exec i s = .next t) : t.halted = (s.halted || decide (i = .hlt)) :=
  congrArg State.halted (exec_eq_after he)

theorem exec_out {i : Instr} {s t : State} (he : exec i s = .next t) : t.out = s.out ++ (emission i s).toList :=
  congrArg State.out (exec_eq_after he)

/-- No instruction but JEQ and JNE reads a flag, and those read Equal alone (R28). -/
theorem exec_withFlags {i : Instr} {s t : State} (he : exec i s = .next t) (f : Flags)
    (hf : (∃ r, i = .jeq r) ∨ (∃ r, i = .jne r) → f.equal = s.flags.equal) :
    exec i { s with flags := f } = .next { t with flags := (writtenFlags i s).getD f } := by
  have h := exec_overlay he f s.halted s.out hf
  rwa [State.after, ← exec_halted he, ← exec_out he] at h

/-- No instruction reads halted (R30). -/
theorem exec_withHalted {i : Instr} {s t : State} (he : exec i s = .next t) (b : Bool) :
    exec i { s with halted := b } = .next { t with halted := b || decide (i = .hlt) } := by
  have h := exec_overlay he s.flags b s.out fun _ => rfl
  rwa [State.after, ← exec_flags he, ← exec_out he] at h

/-- No instruction reads the output stream (R33). -/
theorem exec_withOut {i : Instr} {s t : State} (he : exec i s = .next t) (o : List Byte) :
    exec i { s with out := o } = .next { t with out := o ++ (emission i s).toList } := by
  have h := exec_overlay he s.flags s.halted o fun _ => rfl
  rwa [State.after, ← exec_flags he, ← exec_halted he] at h

theorem exec_flags_of_ne_cmp {i : Instr} {s t : State} (he : exec i s = .next t) (h : ∀ a b, i ≠ .cmp a b) :
    t.flags = s.flags := by
  rw [exec_flags he, writtenFlags_of_ne_cmp s h, Option.getD_none]

theorem exec_halted_of_ne_hlt {i : Instr} {s t : State} (he : exec i s = .next t) (h : i ≠ .hlt) :
    t.halted = s.halted := by
  simp [exec_halted he, h]

theorem exec_out_of_ne_prn {i : Instr} {s t : State} (he : exec i s = .next t) (h : ∀ r, i ≠ .prn r) :
    t.out = s.out := by
  simp [exec_out he, emission_of_ne_prn s h]

/-- The ALU's comparison makes exactly one flag 1 (R102, R27). -/
theorem aluCompare_exactlyOne (va vb : Byte) : (aluCompare va vb).exactlyOne = true := by
  unfold aluCompare
  split
  · rfl
  · split <;> rfl

theorem Flags.atMostOne_of_exactlyOne {f : Flags} (h : f.exactlyOne = true) : f.atMostOne = true :=
  (Bool.and_eq_true_iff.1 h).1

theorem exactlyOne_of_writtenFlags {i : Instr} {s : State} {f : Flags} (h : writtenFlags i s = some f) :
    f.exactlyOne = true := by
  unfold writtenFlags at h
  split at h
  · split at h
    · simp only [Option.bind_eq_some_iff, Option.map_eq_some_iff] at h
      obtain ⟨a, _, b, _, rfl⟩ := h
      exact aluCompare_exactlyOne _ _
    · cases h
  · cases h

/-- A CMP that lies in memory with legal operands writes the flags (R102). -/
theorem exec_cmp_exactlyOne {a b : Byte} {s t : State} (he : exec (.cmp a b) s = .next t) (hfit : s.pc.toNat + 3 ≤ 0x100)
    (hwf : (Instr.cmp a b).wf = true) : t.flags.exactlyOne = true := by
  simp only [Instr.wf, Instr.regOperands, List.all_cons, List.all_nil, Bool.and_true, Bool.and_eq_true] at hwf
  obtain ⟨p, rfl⟩ := exists_regByte_of_regOk hwf.1
  obtain ⟨q, rfl⟩ := exists_regByte_of_regOk hwf.2
  rw [exec_flags he, writtenFlags_cmp hfit]
  exact aluCompare_exactlyOne _ _

/-- After an instruction the flags are what they were, or exactly one is 1 (R27). -/
theorem exec_flags_kept_or_exactlyOne {i : Instr} {s t : State} (he : exec i s = .next t) :
    t.flags = s.flags ∨ t.flags.exactlyOne = true := by
  rw [exec_flags he]
  cases hw : writtenFlags i s with
  | none => exact .inl rfl
  | some f => exact .inr (exactlyOne_of_writtenFlags hw)

/-! ## The fault record (R31, R141) -/

/-- The record of a trap has the value its cause has, and its cause is not DECODE, which the fetch alone raises (R141, R149). -/
theorem Trap.record_wf {i : Instr} {s : State} {k : FaultCause} {v : Byte} (h : Trap i s k v) :
    (faultHere s k v).wf = true ∧ k ≠ .decode := by
  cases h with
  | range hl => exact ⟨rfl, nofun⟩
  | reg hf ho hb hl => exact ⟨decide_eq_true hl, nofun⟩
  | returnAddr hl => exact ⟨rfl, nofun⟩
  | pushLow hf hl => exact ⟨decide_eq_true hl, nofun⟩
  | callLow hf hl => exact ⟨decide_eq_true hl, nofun⟩
  | popHigh hf hl => exact ⟨decide_eq_true hl, nofun⟩
  | retHigh hl => exact ⟨decide_eq_true hl, nofun⟩

theorem State.advance_fault_kept_or_range (s : State) (g : Origin) (n : Nat) :
    (s.advance g n).fault = s.fault ∨ (s.advance g n).fault = some ⟨.addrRange, g.opcode, g.addr, 0⟩ := by
  rw [State.advance_fault]
  split
  · exact .inl rfl
  · exact .inr rfl

/-- An instruction that reaches its own rule raises no fault but the fall-through's (R146 case (b)). -/
theorem Effect.fault {i : Instr} {s t : State} (h : Effect i s t) :
    t.fault = s.fault ∨ t.fault = some (faultHere s .addrRange 0) := by
  cases h with
  | hlt => exact .inl rfl
  | call => exact .inl rfl
  | ret => exact .inl rfl
  | jmp => exact .inl rfl
  | jeqTaken => exact .inl rfl
  | jneTaken => exact .inl rfl
  | _ => exact State.advance_fault_kept_or_range _ _ _

/-- After an instruction the fault record is what it was, or a well-formed report of this instruction. -/
theorem exec_fault {i : Instr} {s t : State} (he : exec i s = .next t) :
    t.fault = s.fault ∨ ∃ k v, t.fault = some (faultHere s k v) ∧ (faultHere s k v).wf = true ∧ k ≠ .decode := by
  rcases exec_cases he with ⟨k, v, ht, rfl⟩ | heff
  · exact .inr ⟨k, v, rfl, ht.record_wf⟩
  · exact heff.fault.imp_right fun h => ⟨.addrRange, 0, h, rfl, nofun⟩

theorem exec_faultKeptOrHere {i : Instr} {s t : State} (he : exec i s = .next t) : FaultKeptOrHere s t :=
  (exec_fault he).imp_right fun ⟨k, v, h, _⟩ => ⟨k, v, h⟩

/-! ## Memory (R51, R56) -/

theorem Trap.storeAddr {i : Instr} {s : State} {k : FaultCause} {v : Byte} (h : Trap i s k v) : storeAddr i s = none := by
  have hbad : operandsOk i s = false → Machine.storeAddr i s = none := fun hok => by
    unfold Machine.storeAddr
    split <;> simp [hok]
  cases h with
  | range hl => exact hbad (by simp [operandsOk]; omega)
  | reg hf ho hb hl => exact hbad (by simp [operandsOk, Instr.wf, ho, regOk]; omega)
  | returnAddr hl => simp [Machine.storeAddr, hl]
  | pushLow hf hl => simp [Machine.storeAddr, hl]
  | callLow hf hl => simp [Machine.storeAddr, hl]
  | popHigh hf hl => rfl
  | retHigh hl => rfl

/-- An instruction stores one byte at the slot below sp, at 0x01 to 0xFE, or leaves memory as it was. -/
theorem exec_mem {i : Instr} {s t : State} (he : exec i s = .next t) :
    (storeAddr i s = none ∧ t.mem = s.mem) ∨
      (storeAddr i s = some s.pushSlot ∧ 1 < s.sp.toNat ∧ ∃ v, t.mem = s.mem.write s.pushSlot v) := by
  rcases exec_cases he with ⟨k, v, ht, rfl⟩ | heff
  · exact .inl ⟨ht.storeAddr, rfl⟩
  have hok := heff.operandsOk
  cases heff with
  | push q hfit hs => exact .inr ⟨by simp [storeAddr, hok, hs], hs, _, State.advance_mem _ _ _⟩
  | call q hfit hs => exact .inr ⟨by simp [storeAddr, hok, hfit, hs], hs, _, rfl⟩
  | _ => exact .inl ⟨rfl, by simp⟩

theorem sameMemoryBut_of_write {s t : State} {d v : Byte} (h : t.mem = s.mem.write d v) : SameMemoryBut d s t := fun a ha => by
  simp [State.readByte, h, Memory.read_write, ha]

theorem exec_sameMemory {i : Instr} {s t : State} (he : exec i s = .next t) (h : storeAddr i s = none) : SameMemory s t := by
  rcases exec_mem he with ⟨_, hmem⟩ | ⟨hstore, _⟩
  · exact fun a => congrArg (Memory.read · a) hmem
  · rw [h] at hstore; cases hstore

/-- Where an instruction stores, it is at the slot below sp, and every other byte stays. -/
theorem exec_sameMemoryBut {i : Instr} {s t : State} (he : exec i s = .next t) {a : Byte} (ha : storeAddr i s = some a) :
    a = s.pushSlot ∧ SameMemoryBut a s t := by
  rcases exec_mem he with ⟨hnone, _⟩ | ⟨hstore, _, v, hmem⟩
  · rw [hnone] at ha; cases ha
  · obtain rfl : s.pushSlot = a := Option.some.inj (hstore.symm.trans ha)
    exact ⟨rfl, sameMemoryBut_of_write hmem⟩

/-! ## Registers (R23) -/

/-- The registers an instruction may write: its destination, and sp for the stack instructions. -/
def mayWrite : Instr → Reg → Prop
  | .add ra _, q => regByte q = ra
  | .mul ra _, q => regByte q = ra
  | .ldi r _, q => regByte q = r
  | .push _, q => q = 7
  | .pop r, q => q = 7 ∨ regByte q = r
  | .call _, q => q = 7
  | .ret, q => q = 7
  | _, _ => False

/-- A register an instruction may not write holds what it held. -/
theorem exec_readReg {i : Instr} {s t : State} (he : exec i s = .next t) {q : Reg} (hq : ¬mayWrite i q) :
    t.readReg q = s.readReg q := by
  rcases exec_cases he with ⟨k, v, ht, rfl⟩ | heff
  · rfl
  cases heff with
  | add d b => simp [mt regByte_inj.2 hq]
  | mul d b => simp [mt regByte_inj.2 hq]
  | ldi d imm => simp [mt regByte_inj.2 hq]
  | push d => simp [spIndex_eq, show q ≠ 7 from hq]
  | pop d =>
    obtain ⟨h7, hd⟩ := not_or.1 hq
    simp [spIndex_eq, h7, mt regByte_inj.2 hd]
  | call d => simp [spIndex_eq, show q ≠ 7 from hq]
  | ret => simp [spIndex_eq, show q ≠ 7 from hq]
  | _ => simp

end Sys2Proof.Machine
end

section
/-! SUPPORT. What one step changes, one field at a time (40_fetch_decode.md R90): the fetch faults or the decoded instruction executes. -/

namespace Sys2Proof.Machine

section
variable {c : Opcodes} {s t : State}

/-- A step raises the fault of the fetch, DECODE exactly for a byte outside the table, or executes what it decoded. -/
theorem stepWith_raise_or_exec (h : stepWith c s = .next t) : s.Running ∧
    ((s.readByte s.pc ∉ opcodeBytes c ∧ t = s.raise s.origin .decode 0) ∨
      (s.readByte s.pc ∈ opcodeBytes c ∧ t = s.raise s.origin .addrRange 0) ∨
      ∃ i rest, decodeWith c s.fetchWindow = .ok i rest ∧ exec i s = .next t) := by
  obtain ⟨hrun, ⟨e, hd, rfl⟩ | hexec⟩ := stepWith_cases h
  · exact ⟨hrun, (raiseDecode_of_reject hd).imp_right .inl⟩
  · exact ⟨hrun, .inr (.inr hexec)⟩

theorem stepWith_of_decoded (hrun : s.Running) {i : Instr} {rest : List Byte}
    (hd : decodeWith c s.fetchWindow = .ok i rest) : stepWith c s = exec i s := by
  rw [stepWith_running hrun, hd]

theorem stepWith_of_reject (hrun : s.Running) {e : DecodeError} (hd : decodeWith c s.fetchWindow = .reject e) :
    stepWith c s = .next (s.raiseDecode e) := by
  rw [stepWith_running hrun, hd]

/-- A running core takes its next step (R95, R178). -/
theorem stepWith_total (c : Opcodes) (hrun : s.Running) : ∃ t, stepWith c s = .next t := by
  cases hd : decodeWith c s.fetchWindow with
  | ok i rest => rw [stepWith_of_decoded hrun hd]; exact exec_total i s
  | reject e => exact ⟨_, stepWith_of_reject hrun hd⟩

/-- A step stores one byte at the slot below sp, or leaves memory as it was. -/
theorem stepWith_mem (h : stepWith c s = .next t) :
    t.mem = s.mem ∨ (1 < s.sp.toNat ∧ ∃ v, t.mem = s.mem.write s.pushSlot v) := by
  obtain ⟨_, ⟨_, rfl⟩ | ⟨_, rfl⟩ | ⟨i, rest, _, he⟩⟩ := stepWith_raise_or_exec h
  · exact .inl rfl
  · exact .inl rfl
  · exact (exec_mem he).imp And.right And.right

theorem stepWith_flags (h : stepWith c s = .next t) : t.flags = s.flags ∨ t.flags.exactlyOne = true := by
  obtain ⟨_, ⟨_, rfl⟩ | ⟨_, rfl⟩ | ⟨i, rest, _, he⟩⟩ := stepWith_raise_or_exec h
  · exact .inl rfl
  · exact .inl rfl
  · exact exec_flags_kept_or_exactlyOne he

/-- A step that leaves the core halted ran an HLT, which does nothing else (R30, R112). -/
theorem stepWith_halted_of_hlt (h : stepWith c s = .next t) (hh : t.halted = true) :
    t = s.halt ∧ ∃ rest, decodeWith c s.fetchWindow = .ok .hlt rest := by
  obtain ⟨⟨hrun, _⟩, ⟨_, rfl⟩ | ⟨_, rfl⟩ | ⟨i, rest, hd, he⟩⟩ := stepWith_raise_or_exec h
  · exact absurd hh (by simp [hrun])
  · exact absurd hh (by simp [hrun])
  · obtain rfl : i = .hlt := by simpa [exec_halted he, hrun] using hh
    cases he
    exact ⟨rfl, rest, hd⟩

/-- The record a step raises: this instruction's, well-formed, DECODE exactly for a byte outside the table (R31, R143). -/
theorem stepWith_fault (h : stepWith c s = .next t) {r : FaultRecord} (hr : t.fault = some r) :
    ∃ k v, r = faultHere s k v ∧ r.wf = true ∧ (k = .decode ↔ s.readByte s.pc ∉ opcodeBytes c) := by
  obtain ⟨⟨_, hfault⟩, ⟨hop, rfl⟩ | ⟨hop, rfl⟩ | ⟨i, rest, hd, he⟩⟩ := stepWith_raise_or_exec h
  · cases hr
    exact ⟨.decode, 0, rfl, rfl, by simp [hop]⟩
  · cases hr
    exact ⟨.addrRange, 0, rfl, rfl, by simp [hop]⟩
  · rcases exec_fault he with hkept | ⟨k, v, hnew, hwf, hk⟩
    · rw [hr, hfault] at hkept; cases hkept
    · cases hr.symm.trans hnew
      exact ⟨k, v, rfl, hwf, by simp [hk, opcode_mem_of_decodeWith_ok hd]⟩

/-- A step appends what the decoded instruction emits, and a fault of the fetch emits nothing (R33, R36). -/
theorem stepWith_out (h : stepWith c s = .next t) : ∃ e : Option Byte, t.out = s.out ++ e.toList := by
  obtain ⟨_, ⟨_, rfl⟩ | ⟨_, rfl⟩ | ⟨i, rest, _, he⟩⟩ := stepWith_raise_or_exec h
  · exact ⟨none, by simp⟩
  · exact ⟨none, by simp⟩
  · exact ⟨emission i s, exec_out he⟩

/-- A push stores at 0x01 to 0xFE, so a step leaves the first and the last cell as they were (R124). -/
theorem stepWith_readByte_ends (h : stepWith c s = .next t) :
    t.readByte 0x00 = s.readByte 0x00 ∧ t.readByte 0xFF = s.readByte 0xFF := by
  rcases stepWith_mem h with hmem | ⟨hsp, v, hmem⟩
  · simp [State.readByte, hmem]
  · have hlo : (0x00 : Byte) ≠ s.pushSlot := by unfold State.pushSlot; bv_omega
    have hhi : (0xFF : Byte) ≠ s.pushSlot := by unfold State.pushSlot; bv_omega
    exact ⟨sameMemoryBut_of_write hmem _ hlo, sameMemoryBut_of_write hmem _ hhi⟩

/-- Every step keeps the invariant, one clause at a time: memory's canonical form, the flags, halted against the fault, the record. -/
theorem State.Inv.step (hi : s.Inv) (h : stepWith c s = .next t) : t.Inv := by
  obtain ⟨hmem, hflags, _, _⟩ := hi
  have hrun := (stepWith_cases h).1
  refine ⟨?_, ?_, ?_, ?_⟩
  · rcases stepWith_mem h with hm | ⟨_, v, hm⟩
    · rwa [hm]
    · rw [hm]; exact Memory.write_wf _ _ hmem
  · rcases stepWith_flags h with hf | hf
    · rwa [hf]
    · exact Flags.atMostOne_of_exactlyOne hf
  · rintro ⟨hh, hf⟩
    rw [(stepWith_halted_of_hlt h hh).1, State.halt_fault, hrun.2] at hf
    cases hf
  · cases hf : t.fault with
    | none => rfl
    | some r =>
      obtain ⟨_, _, _, hwf, _⟩ := stepWith_fault h hf
      exact hwf

end

end Sys2Proof.Machine
end

section
/-! SUPPORT. The start of a run (R35, R172, R173), and runs one step at a time. -/

namespace Sys2Proof.Machine

/-- An image has a start state exactly when it fits in memory, and that state is reset with the image loaded (R35, R173). -/
theorem bootState_eq_some {image : List Byte} {s : State} :
    bootState image = some s ↔ image.length ≤ 256 ∧ s = { State.reset with mem := loadImage image } := by
  unfold bootState
  split <;> simp_all [Config.memSize, eq_comm]

theorem reset_readReg (r : Reg) : State.reset.readReg r = if r = 7 then 0xF4 else 0 := by
  revert r
  decide

/-- A cell of a loaded image holds the image's byte, or 0 beyond it (R173). -/
theorem read_loadImage {image : List Byte} (h : image.length ≤ 256) (a : Byte) :
    (loadImage image).read a = image.getD a.toNat 0 := by
  rw [loadImage, Memory.read_storeFrom [] 0 image a (by omega)]
  split
  · simp
  next hbeyond =>
    rw [List.getD_eq_default _ _ (by omega)]
    rfl

theorem run_succ_eq_next {M : Host.Core} {k : Nat} {s t : M.State} (h : M.run (k + 1) s = .next t) :
    ∃ u, M.step s = .next u ∧ M.run k u = .next t := by
  unfold Host.Core.run at h
  split at h
  next u hu => exact ⟨u, hu, h⟩
  · cases h
  · cases h

end Sys2Proof.Machine
end

section
/-! PROOFS. The statements about the start of a run, the step, the frames and the whole machine (10_state.md). -/

open Sys2Proof Sys2Proof.Machine

/-! ## The invariant -/

/-- Settles O51, clause by clause of the invariant. -/
theorem stepKeepsTheInvariant : Obligations.StepKeepsTheInvariant :=
  fun _ _ _ hi h => hi.step h

/-- Settles O52, by induction over the steps of the run. -/
theorem runsKeepTheInvariantAndTheOutput : Obligations.RunsKeepTheInvariantAndTheOutput := by
  intro c s t hi hreach
  induction hreach with
  | start => exact ⟨hi, ⟨[], List.append_nil _⟩, rfl, rfl⟩
  | step _ hstep ih =>
    obtain ⟨hinv, hout, hlo, hhi⟩ := ih
    obtain ⟨e, he⟩ := stepWith_out hstep
    obtain ⟨hlo', hhi'⟩ := stepWith_readByte_ends hstep
    exact ⟨hinv.step hstep, hout.trans ⟨e.toList, he.symm⟩, hlo'.trans hlo, hhi'.trans hhi⟩

/-- Settles O55: a step that leaves the core halted decoded an HLT at the pc it keeps, and 0x01 is HLT's byte in every assignment. -/
theorem stepKeepsTheInvariantAndHaltedAtAnHltByte : Obligations.StepKeepsTheInvariantAndHaltedAtAnHltByte := by
  intro c s t hi _ h
  refine ⟨hi.step h, fun hh => ?_⟩
  obtain ⟨rfl, rest, hd⟩ := stepWith_halted_of_hlt h hh
  exact readByte_pc_of_decoded hd

/-- Settles O49. -/
theorem resetMeetsTheInvariant : Obligations.ResetMeetsTheInvariant :=
  ⟨Memory.wf_nil, rfl, nofun, rfl⟩

/-! ## The start of a run -/

/-- Settles O50. -/
theorem everyBootStateMeetsTheInvariant : Obligations.EveryBootStateMeetsTheInvariant := by
  intro image s h
  obtain ⟨_, rfl⟩ := bootState_eq_some.1 h
  exact ⟨Memory.storeFrom_wf 0 image Memory.wf_nil, rfl, nofun, rfl⟩

/-- Settles O1: reset's own values, and memory read off the image. -/
theorem bootStateHoldsResetValuesAndImage : Obligations.BootStateHoldsResetValuesAndImage := by
  refine ⟨rfl, fun image h => ⟨_, bootState_eq_some.2 ⟨h, rfl⟩, fun r hr => ?_, reset_readReg 7, reset_readReg 7, rfl, rfl, rfl,
    rfl, rfl, rfl, rfl, read_loadImage h⟩⟩
  exact (reset_readReg r).trans (if_neg hr)

/-! ## The step -/

/-- Settles O13. -/
theorem coreStepsExactlyWhenRunning : Obligations.CoreStepsExactlyWhenRunning :=
  ⟨fun c _ hrun => stepWith_total c hrun, fun _ _ _ hf => stepWith_faulted hf, fun _ _ hf hh => stepWith_halted hf hh, exec_total⟩

/-- Settles O17. -/
theorem faultRecordReportsOpcodeAndAddress : Obligations.FaultRecordReportsOpcodeAndAddress := by
  refine ⟨rfl, fun _ => rfl, fun _ _ _ hf => stepWith_faulted hf, fun c s t r _ h hr => ?_⟩
  obtain ⟨k, v, rfl, hwf, hk⟩ := stepWith_fault h hr
  exact ⟨rfl, rfl, hwf, hk⟩

/-- Settles O48: each cause code fits the 3-bit port. -/
theorem statusPortsShowHaltedAndFault : Obligations.StatusPortsShowHaltedAndFault := by
  have hcode : ∀ k : FaultCause, (BitVec.ofNat 3 k.code).toNat = k.code := fun k => by cases k <;> rfl
  refine ⟨fun s hf => ?_, fun s r hf => ?_⟩
  · simp [State.statusPorts, hf]
  · simp [State.statusPorts, hf, hcode]

/-! ## Frames -/

/-- Settles O36. -/
theorem addMulLdiFrame : Obligations.AddMulLdiFrame := by
  intro i d s t hi h
  have hfault := exec_faultKeptOrHere h
  rcases hi with ⟨b, rfl⟩ | ⟨b, rfl⟩ | ⟨imm, rfl⟩
  all_goals exact ⟨fun q hq => exec_readReg h hq, exec_flags_of_ne_cmp h nofun, exec_sameMemory h rfl,
    exec_out_of_ne_prn h nofun, exec_halted_of_ne_hlt h nofun, hfault⟩

/-- Settles O37. -/
theorem noRegisterWrittenFrame : Obligations.NoRegisterWrittenFrame := by
  intro i s t hi h
  have hfault := exec_faultKeptOrHere h
  rcases hi with ⟨a, b, rfl⟩ | ⟨r, rfl⟩ | rfl | ⟨r, rfl⟩ | ⟨r, rfl⟩ | ⟨r, rfl⟩
  all_goals exact ⟨fun q _ => exec_readReg h id, exec_sameMemory h rfl, exec_flags_of_ne_cmp h, exec_out_of_ne_prn h,
    exec_halted_of_ne_hlt h, hfault⟩

/-- Settles O38. -/
theorem popRetFrame : Obligations.PopRetFrame := by
  intro i s t hi h
  have hfault := exec_faultKeptOrHere h
  rcases hi with ⟨r, rfl⟩ | rfl
  · exact ⟨fun q h7 hr => exec_readReg h (not_or.2 ⟨h7, hr r rfl⟩), exec_flags_of_ne_cmp h nofun, exec_sameMemory h rfl,
      exec_out_of_ne_prn h nofun, exec_halted_of_ne_hlt h nofun, hfault⟩
  · exact ⟨fun q h7 _ => exec_readReg h h7, exec_flags_of_ne_cmp h nofun, exec_sameMemory h rfl,
      exec_out_of_ne_prn h nofun, exec_halted_of_ne_hlt h nofun, hfault⟩

/-- Settles O39. -/
theorem pushCallFrame : Obligations.PushCallFrame := by
  intro i s t hi h
  have hfault := exec_faultKeptOrHere h
  have hstore := fun a => exec_sameMemoryBut h (a := a)
  have hnone := exec_sameMemory h
  rcases hi with ⟨r, rfl⟩ | ⟨r, rfl⟩
  all_goals exact ⟨fun q hq => exec_readReg h (mt List.mem_singleton.2 hq), exec_flags_of_ne_cmp h nofun,
    exec_out_of_ne_prn h nofun, exec_halted_of_ne_hlt h nofun, hfault, hstore, hnone⟩

/-! ## Flags, halted and the output -/

/-- Settles O40. -/
theorem flagsAreWrittenByCmpAndOnlyEqualIsRead : Obligations.FlagsAreWrittenByCmpAndOnlyEqualIsRead := by
  refine ⟨fun i s t h hcmp => exec_flags_of_ne_cmp h hcmp, fun a b s hfit => ?_, fun i s t l g h => ?_,
    fun i s t f hjeq hjne h => ?_⟩
  · exact ⟨_, exec_of_effect (.cmp a b hfit), by simpa using aluCompare_exactlyOne _ _⟩
  · refine ⟨_, exec_withFlags h ⟨l, g, s.flags.equal⟩ fun _ => rfl, rfl, ?_⟩
    rw [exec_flags h]
    cases writtenFlags i s <;> rfl
  · have hne : ¬((∃ r, i = .jeq r) ∨ ∃ r, i = .jne r) := fun
      | .inl ⟨r, hr⟩ => hjeq r hr
      | .inr ⟨r, hr⟩ => hjne r hr
    exact ⟨_, exec_withFlags h f fun hj => absurd hj hne, rfl⟩

/-- Settles O41. -/
theorem flagsStayExclusive : Obligations.FlagsStayExclusive := by
  refine ⟨rfl, fun c s t h => ⟨fun hs => ?_, fun hs => ?_, fun hne => ?_, fun a b rest hd hwf => ?_⟩⟩
  · exact (stepWith_flags h).elim (· ▸ hs) Flags.atMostOne_of_exactlyOne
  · exact (stepWith_flags h).elim (· ▸ hs) id
  · obtain ⟨_, ⟨_, rfl⟩ | ⟨_, rfl⟩ | ⟨i, rest, hd, he⟩⟩ := stepWith_raise_or_exec h
    · exact absurd rfl hne
    · exact absurd rfl hne
    · by_contra hcmp
      exact hne (exec_flags_of_ne_cmp he fun a b hi => hcmp ⟨a, b, rest, hi ▸ hd⟩)
  · rw [stepWith_of_decoded (stepWith_cases h).1 hd] at h
    exact exec_cmp_exactlyOne h (decoded_fits hd) hwf

/-- Settles O42. -/
theorem haltedIsSetByHltAndNeverRead : Obligations.HaltedIsSetByHltAndNeverRead := by
  refine ⟨rfl, fun _ => rfl, fun _ _ _ h => exec_halted h, fun _ _ _ b h => exec_withHalted h b, fun c s t hh h => ?_⟩
  have hrun := (stepWith_cases h).1.1
  rw [hh] at hrun
  cases hrun

/-- Settles O43: a fault of the fetch emits nothing, and an executed instruction emits what `emission` says. -/
theorem outputIsAppendedByPrnAndNeverReadBack : Obligations.OutputIsAppendedByPrnAndNeverReadBack := by
  refine ⟨rfl, fun c s t h => ?_⟩
  obtain ⟨hrun, ⟨e, hd, rfl⟩ | ⟨i, rest, hd, he⟩⟩ := stepWith_cases h
  · refine ⟨[], ?_, fun i rest hok => ?_, fun _ => rfl, fun o => ?_⟩
    · cases e <;> exact (List.append_nil _).symm
    · rw [hd] at hok; cases hok
    · rw [stepWith_of_reject (s := { s with out := o }) hrun hd, List.append_nil]
      cases e <;> rfl
  · refine ⟨(emission i s).toList, exec_out he, fun j rest' hok => ?_, fun hprn => ?_, fun o => ?_⟩
    · cases hd.symm.trans hok; rfl
    · rw [emission_of_ne_prn s fun r hi => hprn r rest (hi ▸ hd)]; rfl
    · rw [stepWith_of_decoded (s := { s with out := o }) hrun hd, exec_withOut he o]

/-- Settles O54, by induction on the number of steps. -/
theorem runOfKStepsEmitsAtMostKBytes : Obligations.RunOfKStepsEmitsAtMostKBytes := by
  intro k
  induction k with
  | zero =>
    intro s t h
    cases h
    exact ⟨[], Nat.le_refl 0, (List.append_nil _).symm⟩
  | succ k ih =>
    intro s t h
    obtain ⟨u, hstep, hrun⟩ := run_succ_eq_next h
    obtain ⟨e, he⟩ := stepWith_out (c := Config.opcodes) hstep
    obtain ⟨emitted, hlen, hout⟩ := ih u t hrun
    refine ⟨e.toList ++ emitted, ?_, by rw [hout, he, List.append_assoc]⟩
    have hone : e.toList.length ≤ 1 := by cases e <;> simp
    rw [List.length_append]
    omega
end

section
/-! SUPPORT. An instruction stored at pc and the fetch that reads it (20_memory.md R54, 40_fetch_decode.md R90). -/

namespace Sys2Proof

/-- Three bytes are the longest instruction (R83). -/
theorem Instr.length_le_three (i : Instr) : i.length ≤ 3 := by
  cases i <;> simp [Instr.length]

/-- Every instruction is made of its operand bytes by a row of the table with its opcode byte (R77). -/
theorem exists_row_makes (c : Opcodes) (i : Instr) :
    ∃ row ∈ rows c, row.opcode = i.opcode c ∧ row.form.Makes i.operands i := by
  cases i with
  | add a b => exact ⟨_, List.mem_of_getElem? (i := 0) rfl, rfl, .rr .add a b⟩
  | mul a b => exact ⟨_, List.mem_of_getElem? (i := 1) rfl, rfl, .rr .mul a b⟩
  | cmp a b => exact ⟨_, List.mem_of_getElem? (i := 2) rfl, rfl, .rr .cmp a b⟩
  | ldi r imm => exact ⟨_, List.mem_of_getElem? (i := 3) rfl, rfl, .ri .ldi r imm⟩
  | prn r => exact ⟨_, List.mem_of_getElem? (i := 4) rfl, rfl, .r .prn r⟩
  | hlt => exact ⟨_, List.mem_of_getElem? (i := 5) rfl, rfl, .z .hlt⟩
  | push r => exact ⟨_, List.mem_of_getElem? (i := 6) rfl, rfl, .r .push r⟩
  | pop r => exact ⟨_, List.mem_of_getElem? (i := 7) rfl, rfl, .r .pop r⟩
  | call r => exact ⟨_, List.mem_of_getElem? (i := 8) rfl, rfl, .r .call r⟩
  | ret => exact ⟨_, List.mem_of_getElem? (i := 9) rfl, rfl, .z .ret⟩
  | jmp r => exact ⟨_, List.mem_of_getElem? (i := 10) rfl, rfl, .r .jmp r⟩
  | jeq r => exact ⟨_, List.mem_of_getElem? (i := 11) rfl, rfl, .r .jeq r⟩
  | jne r => exact ⟨_, List.mem_of_getElem? (i := 12) rfl, rfl, .r .jne r⟩

/-- Reading operands takes the format's bytes off the front, whatever follows them. -/
theorem Form.Makes.decodeOperands {f : Form} {ops : List Byte} {i : Instr} (h : f.Makes ops i) (op : Byte)
    (rest : List Byte) : decodeOperands op f (ops ++ rest) = .ok i rest := by
  cases h <;> rfl

/-- Under an assignment that meets R79 decoding gives an encoded instruction back, whatever bytes follow it (R70, R83). -/
theorem decodeWith_encodeWith_append {c : Opcodes} (hv : c.Valid) (i : Instr) (rest : List Byte) :
    decodeWith c (encodeWith c i ++ rest) = .ok i rest := by
  obtain ⟨row, hmem, hop, hmakes⟩ := exists_row_makes c i
  simp [encodeWith, decodeWith, ← hop, findRow_of_mem hv hmem, hmakes.decodeOperands]

end Sys2Proof

namespace Sys2Proof.Machine

/-- Byte k of the fetch window is the one at pc + k, where that address exists (R90, R59). -/
theorem fetchWindow_getElem? {s : State} {k : Nat} (hk : k < 3) (hpc : s.pc.toNat + k ≤ 0xFF) :
    s.fetchWindow[k]? = some (s.readByte (s.pc + BitVec.ofNat 8 k)) := by
  unfold State.fetchWindow State.operandWindow
  match k, hk with
  | 0, _ => simp
  | 1, _ =>
    rw [if_pos hpc]
    split <;> rfl
  | 2, _ =>
    rw [if_pos hpc]
    rfl

/-- The encoding of the instruction lies in memory at pc, byte after byte (R54). -/
def StoredAtPc (c : Opcodes) (i : Instr) (s : State) : Prop :=
  ∀ (k : Nat) (h : k < (encodeWith c i).length), s.readByte (BitVec.ofNat 8 (s.pc.toNat + k)) = (encodeWith c i)[k]

/-- An instruction stored at pc that ends at or below 0xFF begins the fetch window (R91). -/
theorem StoredAtPc.begins_fetchWindow {c : Opcodes} {i : Instr} {s : State} (h : StoredAtPc c i s)
    (hfit : s.pc.toNat + i.length ≤ 0x100) : encodeWith c i <+: s.fetchWindow := by
  rw [List.prefix_iff_getElem?]
  intro k hk
  have hlen : k < i.length := encodeWith_length c i ▸ hk
  have hlen3 := i.length_le_three
  have haddr : s.pc + BitVec.ofNat 8 k = BitVec.ofNat 8 (s.pc.toNat + k) := by simp [BitVec.ofNat_add]
  rw [fetchWindow_getElem? (by omega) (by omega), haddr, h k hk]

/-- A step of a running core executes the instruction stored at pc (R54, R90). -/
theorem StoredAtPc.stepWith {c : Opcodes} {i : Instr} {s : State} (h : StoredAtPc c i s) (hv : c.Valid) (hrun : s.Running)
    (hfit : s.pc.toNat + i.length ≤ 0x100) : stepWith c s = exec i s := by
  obtain ⟨rest, hwin⟩ := h.begins_fetchWindow hfit
  exact stepWith_of_decoded hrun (hwin ▸ decodeWith_encodeWith_append hv i rest)

end Sys2Proof.Machine
end

section
/-! SUPPORT. Canonical memories as sets of cells (20_memory.md R50; log entry 4), and the accesses of a step (R51, R56, R62). -/

namespace Sys2Proof.Machine

/-! ## The canonical form -/

theorem Memory.mem_of_find {m : Memory} {a : Nat} (h : Memory.find a m ≠ unlistedByte) : (a, Memory.find a m) ∈ m := by
  induction m with
  | nil => exact absurd rfl h
  | cons cell rest ih =>
    by_cases hc : cell.1 = a
    · simp [Memory.find, ← hc]
    · simp only [Memory.find, if_neg hc] at h ⊢
      exact List.mem_cons_of_mem _ (ih h)

/-- With rising keys the entry of a key is the one that is read. -/
theorem Memory.find_of_mem {m : Memory} {cell : Host.Cell} (hm : m.Pairwise fun x y => x.1 < y.1) (h : cell ∈ m) :
    Memory.find cell.1 m = cell.2 := by
  induction m with
  | nil => cases h
  | cons first rest ih =>
    obtain ⟨hfirst, hrest⟩ := List.pairwise_cons.1 hm
    rcases List.mem_cons.1 h with rfl | hin
    · simp [Memory.find]
    · simp [Memory.find, (hfirst cell hin).ne, ih hrest hin]

/-- A canonical memory lists exactly the bytes that do not read as unlisted. -/
theorem Memory.mem_iff_read {m : Memory} (hm : m.wf) {cell : Host.Cell} :
    cell ∈ m ↔ ∃ a : Byte, cell = (a.toNat, m.read a) ∧ m.read a ≠ unlistedByte := by
  constructor
  · intro h
    obtain ⟨hkey, hval⟩ := hm.2 cell h
    have hnat : (BitVec.ofNat 8 cell.1).toNat = cell.1 := Nat.mod_eq_of_lt hkey
    have hread : m.read (BitVec.ofNat 8 cell.1) = cell.2 := by rw [Memory.read, hnat, Memory.find_of_mem hm.1 h]
    exact ⟨BitVec.ofNat 8 cell.1, by rw [hread, hnat], hread ▸ hval⟩
  · rintro ⟨a, rfl, hval⟩
    exact Memory.mem_of_find hval

/-- Canonical memories that read alike list the same cells, in the one rising order of their keys. -/
theorem Memory.ext_read {m n : Memory} (hm : m.wf) (hn : n.wf) (h : ∀ a : Byte, m.read a = n.read a) : m = n := by
  have hcells : ∀ cell, cell ∈ m ↔ cell ∈ n := fun cell => by simp only [Memory.mem_iff_read hm, Memory.mem_iff_read hn, h]
  exact hm.1.eq_of_mem_iff (r := InvImage (· < ·) Prod.fst) hn.1 hcells

/-! ## The data access -/

theorem dataAccess_of_not_operandsOk {i : Instr} {s : State} (h : operandsOk i s = false) : dataAccess i s = [] := by
  simp [dataAccess, h]

/-- A fault raised before any effect makes no data access (R151). -/
theorem Trap.dataAccess {i : Instr} {s : State} {k : FaultCause} {v : Byte} (h : Trap i s k v) : dataAccess i s = [] := by
  cases h with
  | range hl => exact dataAccess_of_not_operandsOk (by simp [operandsOk]; omega)
  | reg hf ho hb hl => exact dataAccess_of_not_operandsOk (by simp [operandsOk, Instr.wf, ho, regOk]; omega)
  | returnAddr hl => simp [Machine.dataAccess, hl]
  | pushLow hf hl => simp [Machine.dataAccess, hl]
  | callLow hf hl => simp [Machine.dataAccess, hl]
  | popHigh hf hl => simp [Machine.dataAccess, spReset_toNat, hl]
  | retHigh hl => simp [Machine.dataAccess, spReset_toNat, hl]

/-- The data access of an instruction, and the memory it leaves: none, one write at sp - 1, or one read at sp (R51, R56). -/
theorem exec_dataAccess {i : Instr} {s t : State} (he : exec i s = .next t) :
    (dataAccess i s = [] ∧ t.mem = s.mem) ∨
      (∃ v, dataAccess i s = [.write s.pushSlot v] ∧ t.mem = s.mem.write s.pushSlot v) ∨
      (dataAccess i s = [.read s.sp] ∧ t.mem = s.mem) := by
  rcases exec_cases he with ⟨k, v, ht, rfl⟩ | heff
  · exact .inl ⟨ht.dataAccess, rfl⟩
  have hok := heff.operandsOk
  cases heff with
  | push q hfit hs =>
    refine .inr (.inl ⟨_, ?_, State.advance_mem _ _ _⟩)
    rw [← readReg_after_setSp]
    simp [dataAccess, hok, not_le.2 hs]
  | call q hfit hs =>
    refine .inr (.inl ⟨_, ?_, rfl⟩)
    simp [dataAccess, hok, not_le.2 hs, not_lt.2 hfit]
  | pop q hfit hs =>
    refine .inr (.inr ⟨?_, State.advance_mem _ _ _⟩)
    simp [dataAccess, hok, not_le.2 hs, spReset_toNat]
  | ret hs =>
    refine .inr (.inr ⟨?_, rfl⟩)
    simp [dataAccess, hok, not_le.2 hs, spReset_toNat]
  | _ => exact .inl ⟨by simp [dataAccess], by simp⟩

theorem exec_mem_eq_foldl {i : Instr} {s t : State} (he : exec i s = .next t) :
    t.mem = (dataAccess i s).foldl Access.apply s.mem := by
  rcases exec_dataAccess he with ⟨hd, hmem⟩ | ⟨v, hd, hmem⟩ | ⟨hd, hmem⟩
  all_goals rw [hd, hmem]; rfl

/-- The byte an instruction writes is read back in the state it leaves (R52). -/
theorem exec_readByte_of_write {i : Instr} {s t : State} {a v : Byte} (he : exec i s = .next t)
    (hw : .write a v ∈ dataAccess i s) : t.readByte a = v := by
  rcases exec_dataAccess he with ⟨hd, _⟩ | ⟨u, hd, hmem⟩ | ⟨hd, _⟩
  · simp [hd] at hw
  · obtain ⟨rfl, rfl⟩ : a = s.pushSlot ∧ v = u := by simpa [hd] using hw
    simp [State.readByte, hmem, Memory.read_write]
  · simp [hd] at hw

/-! ## The accesses of a step -/

/-- The fetch only reads (R53). -/
theorem foldl_apply_fetchAccesses (s : State) (n : Nat) (m : Memory) :
    (fetchAccesses s n).foldl Access.apply m = m := by
  simp [fetchAccesses, List.foldl_map, Access.apply]

theorem stepAccesses_of_decoded {c : Opcodes} {s : State} {i : Instr} {rest : List Byte} (hrun : s.Running)
    (hd : decodeWith c s.fetchWindow = .ok i rest) : stepAccesses c s = fetchAccesses s i.length ++ dataAccess i s := by
  simp [stepAccesses, stopped_eq_none.2 hrun, hd]

theorem stepAccesses_of_reject {c : Opcodes} {s : State} {e : DecodeError} (hrun : s.Running)
    (hd : decodeWith c s.fetchWindow = .reject e) : stepAccesses c s = fetchAccesses s 1 := by
  simp [stepAccesses, stopped_eq_none.2 hrun, hd]

theorem State.raiseDecode_mem (s : State) (e : DecodeError) : (s.raiseDecode e).mem = s.mem := by
  cases e <;> rfl

end Sys2Proof.Machine
end

section
/-! PROOFS. The statements about memory: its cells, the fetch that reads them and the stack that writes them (20_memory.md). -/

open Sys2Proof Sys2Proof.Machine

/-- Settles O3. -/
theorem memReadReturnsLastWrite : Obligations.MemReadReturnsLastWrite :=
  ⟨State.writeByte_readByte, Memory.read_nil⟩

/-- Settles O4. -/
theorem canonicalMemoriesThatReadAlikeAreEqual : Obligations.CanonicalMemoriesThatReadAlikeAreEqual :=
  fun _ _ hm hn h => Memory.ext_read hm hn h

/-- Settles O11. -/
theorem stepRunsTheInstructionStoredAtPc : Obligations.StepRunsTheInstructionStoredAtPc :=
  fun _ _ _ hv hrun hfit hstored => StoredAtPc.stepWith hstored hv hrun hfit

/-- Settles O35: the step executes CALL of the byte fetched, whose store at sp - 1 lands on the operand cell. -/
theorem callOverwritingItsOperandUsesTheFetchedByte : Obligations.CallOverwritingItsOperandUsesTheFetchedByte := by
  intro c s q hv hrun hq hfit hlow hsp hop hoperand
  have hstored : StoredAtPc c (.call (regByte q)) s := fun k hk =>
    match k, hk with
    | 0, _ => by simpa [encodeWith, Instr.opcode] using hop
    | 1, _ => by simpa [encodeWith, Instr.operands, BitVec.ofNat_add] using hoperand
  have hslot : s.pushSlot = s.pc + 1 := by
    unfold State.pushSlot
    bv_omega
  have hcall := exec_of_effect (.call q hfit hlow)
  refine ⟨_, (hstored.stepWith hv hrun (Nat.le_succ_of_le hfit)).trans hcall, by simp [hq], ?_⟩
  simp [hslot, State.returnAddr]
  omega

/-- Settles O44: the fetch only reads, and what an instruction does to memory is its data access. -/
theorem accessesOfAStepAccountForMemory : Obligations.AccessesOfAStepAccountForMemory := by
  intro c s t h
  obtain ⟨hrun, ⟨e, hd, rfl⟩ | ⟨i, rest, hd, he⟩⟩ := stepWith_cases h
  · rw [stepAccesses_of_reject hrun hd, foldl_apply_fetchAccesses]
    exact ⟨s.raiseDecode_mem e, 1, [], by decide, (List.append_nil _).symm, .inl rfl⟩
  · rw [stepAccesses_of_decoded hrun hd, List.foldl_append, foldl_apply_fetchAccesses]
    refine ⟨exec_mem_eq_foldl he, i.length, dataAccess i s, i.length_le_three, rfl, ?_⟩
    exact (exec_dataAccess he).imp And.left (.imp (fun ⟨v, hw, _⟩ => ⟨v, hw⟩) And.left)

/-- Settles O45. -/
theorem firstAndLastCellAreNeverWritten : Obligations.FirstAndLastCellAreNeverWritten :=
  fun _ _ _ h => stepWith_readByte_ends h

/-- Settles O46: each byte of the window is memory's, and memory holds the byte written. -/
theorem storedByteIsSeenByTheNextFetch : Obligations.StoredByteIsSeenByTheNextFetch := by
  intro i s t a v hw he
  have hread := exec_readByte_of_write he hw
  have hwin : ∀ k < 3, t.pc.toNat + k = a.toNat → t.fetchWindow[k]? = some v := fun k hk hka => by
    have haddr : t.pc + BitVec.ofNat 8 k = a := by bv_omega
    rw [fetchWindow_getElem? hk (by omega), haddr, hread]
  exact ⟨fun hpc => hwin 0 (by decide) (congrArg BitVec.toNat hpc), hwin 1 (by decide), hwin 2 (by decide)⟩
end

section
/-! SUPPORT. The bytes outside the opcode table, and the default opcode bytes (30_encoding.md R78, R79, R81). -/

namespace Sys2Proof

/-- All 256 bytes, in rising order. -/
def allBytes : List Byte := (List.range 256).map (BitVec.ofNat 8)

theorem mem_allBytes (b : Byte) : b ∈ allBytes :=
  List.mem_map.2 ⟨b.toNat, List.mem_range.2 b.isLt, by simp⟩

theorem allBytes_nodup : allBytes.Nodup :=
  List.nodup_range.map_on fun x hx y hy h => by
    simpa [BitVec.toNat_ofNat, Nat.mod_eq_of_lt (List.mem_range.1 hx), Nat.mod_eq_of_lt (List.mem_range.1 hy)]
      using congrArg BitVec.toNat h

/-- The bytes that are in the table are its 13, each once. -/
theorem filter_mem_opcodeBytes_perm {c : Opcodes} (hv : c.Valid) :
    (allBytes.filter (opcodeBytes c).contains).Perm (opcodeBytes c) :=
  (List.perm_ext_iff_of_nodup (allBytes_nodup.filter _) hv.1).2 fun b => by simp [mem_allBytes]

/-- Under an assignment that meets R79 the 13 opcode bytes are distinct, so 256 - 13 bytes are outside the table. -/
theorem length_unknownBytes {c : Opcodes} (hv : c.Valid) :
    ((List.range 256).filter fun n => !(opcodeBytes c).contains (BitVec.ofNat 8 n)).length = 243 := by
  have hknown : (allBytes.filter (opcodeBytes c).contains).length = 13 := (filter_mem_opcodeBytes_perm hv).length_eq
  have hsplit := List.length_eq_length_filter_add (l := allBytes) (opcodeBytes c).contains
  have hall : allBytes.length = 256 := by simp [allBytes]
  have hunknown : (allBytes.filter fun b => !(opcodeBytes c).contains b).length =
      ((List.range 256).filter fun n => !(opcodeBytes c).contains (BitVec.ofNat 8 n)).length := by
    simp [allBytes, List.filter_map, Function.comp_def]
  omega

/-- A word written out that is an instruction's encoding decodes to it, with nothing left. -/
theorem decode_of_encode_eq {i : Instr} {word : List Byte} (h : encode i = word) : decode word = .ok i [] := by
  simpa [← h, decode, encode] using decodeWith_encodeWith_append defaultOpcodes_valid i []

end Sys2Proof
end

section
/-! SUPPORT. The lines of an image file and the bytes they give (30_encoding.md R84). -/

namespace Sys2Proof.Machine

/-- The digits of a line are read left to right, each from the value of those before it. -/
theorem binaryValue_append (acc : Nat) (xs ys : List Char) :
    binaryValue acc (xs ++ ys) = (binaryValue acc xs).bind fun v => binaryValue v ys := by
  induction xs generalizing acc with
  | nil => rfl
  | cons ch rest ih =>
    simp only [List.cons_append, binaryValue]
    split
    · exact ih _
    · split
      · exact ih _
      · rfl

theorem binaryValue_digit (acc : Nat) (d : Bool) :
    binaryValue acc [if d then '1' else '0'] = some (2 * acc + d.toNat) := by
  cases d <;> rfl

/-- The first n digits of a byte's line have the value of its n most significant bits. -/
theorem binaryValue_leading_digits (b : Byte) {n : Nat} (hn : n ≤ 8) :
    binaryValue 0 ((List.range n).map fun k => if b.getMsbD k then '1' else '0') = some (b.toNat / 2 ^ (8 - n)) := by
  induction n with
  | zero => simp [binaryValue, Nat.div_eq_of_lt b.isLt]
  | succ n ih =>
    have hbit : (b.getMsbD n).toNat = b.toNat / 2 ^ (8 - (n + 1)) % 2 := by
      simp [BitVec.getMsbD, BitVec.getLsbD, Nat.toNat_testBit, show n < 8 by omega]
    have hhalf : b.toNat / 2 ^ (8 - n) = b.toNat / 2 ^ (8 - (n + 1)) / 2 := by
      rw [Nat.div_div_eq_div_mul, ← Nat.pow_succ, Nat.sub_add_eq, Nat.succ_eq_add_one, Nat.sub_add_cancel (by omega)]
    rw [List.range_succ, List.map_append, binaryValue_append, ih (by omega), List.map_singleton, Option.bind_some,
      binaryValue_digit, hbit, hhalf, Nat.div_add_mod]

theorem binaryValue_imageLineOf (b : Byte) : binaryValue 0 (imageLineOf b) = some b.toNat :=
  (binaryValue_leading_digits b le_rfl).trans (by simp)

theorem imageLineOf_length (b : Byte) : (imageLineOf b).length = 8 := by
  simp [imageLineOf]

theorem mem_imageLineOf {b : Byte} {ch : Char} (h : ch ∈ imageLineOf b) : ch = '0' ∨ ch = '1' := by
  obtain ⟨k, -, rfl⟩ := List.mem_map.1 h
  split
  · exact .inr rfl
  · exact .inl rfl

theorem uncomment_append {xs : List Char} (ys : List Char) (h : ∀ ch ∈ xs, ch ≠ '#') :
    uncomment (xs ++ ys) = xs ++ uncomment ys := by
  induction xs with
  | nil => rfl
  | cons ch rest ih =>
    obtain ⟨hch, hrest⟩ := List.forall_mem_cons.1 h
    simp [uncomment, hch, ih hrest]

/-- Blanks are dropped up to the first character that is none. -/
theorem dropWhile_blank_append {xs : List Char} (ys : List Char) (hx : xs ≠ []) (h : ∀ ch ∈ xs, isBlankChar ch = false) :
    (xs ++ ys).dropWhile isBlankChar = xs ++ ys := by
  obtain ⟨ch, rest, rfl⟩ := List.exists_cons_of_ne_nil hx
  simp [h ch]

/-- Trimming both ends of a line removes the blanks after its digits and no digit. -/
theorem trim_append_blanks {xs ys : List Char} (hx : xs ≠ []) (h : ∀ ch ∈ xs, isBlankChar ch = false)
    (hy : ∀ ch ∈ ys, isBlankChar ch = true) :
    (((xs ++ ys).dropWhile isBlankChar).reverse.dropWhile isBlankChar).reverse = xs := by
  have hreverse : xs.reverse.dropWhile isBlankChar = xs.reverse := by
    simpa using dropWhile_blank_append [] (List.reverse_ne_nil_iff.2 hx) (by simpa using h)
  rw [dropWhile_blank_append ys hx h, List.reverse_append, List.dropWhile_append_of_pos (by simpa using hy), hreverse,
    List.reverse_reverse]

/-- The digits of a byte, then blanks and a comment, are the line of that byte. -/
theorem parseImageLine_imageLineOf_append (b : Byte) {tail : List Char} (h : ∀ ch ∈ uncomment tail, isBlankChar ch = true) :
    parseImageLine (imageLineOf b ++ tail) = .byte b := by
  have hcomment : ∀ ch ∈ imageLineOf b, ch ≠ '#' := fun ch hch => by
    rcases mem_imageLineOf hch with rfl | rfl <;> decide
  have hblank : ∀ ch ∈ imageLineOf b, isBlankChar ch = false := fun ch hch => by
    rcases mem_imageLineOf hch with rfl | rfl <;> rfl
  have hne : imageLineOf b ≠ [] := List.ne_nil_of_length_eq_add_one (imageLineOf_length b)
  simp [parseImageLine, uncomment_append tail hcomment, trim_append_blanks hne hblank h, hne, imageLineOf_length,
    binaryValue_imageLineOf]

/-- Lines that each give a byte give those bytes in file order. -/
theorem parseImage_map {α : Type} {line : α → List Char} {value : α → Byte}
    (h : ∀ a, parseImageLine (line a) = .byte (value a)) (xs : List α) : parseImage (xs.map line) = some (xs.map value) := by
  induction xs with
  | nil => rfl
  | cons x rest ih => simp [parseImage, h, ih]

end Sys2Proof.Machine
end

section
/-! PROOFS. The statements about the encoding and the image text (30_encoding.md). -/

open Sys2Proof Sys2Proof.Machine

/-- Settles O5: the row of the instruction's opcode byte is the one found, and its format reads the operands back. -/
theorem decodeOfEncodeIsTheInstruction : Obligations.DecodeOfEncodeIsTheInstruction :=
  fun _ hv i rest => decodeWith_encodeWith_append hv i rest

/-- Settles O6. -/
theorem decodedBytesAreTheEncoding : Obligations.DecodedBytesAreTheEncoding :=
  fun c _ i _ h => ⟨eq_encodeWith_append_of_decodeWith_ok h, encodeWith_length c i⟩

/-- Settles O7. -/
theorem unknownOpcodesAreExactlyThoseOutsideTheTable : Obligations.UnknownOpcodesAreExactlyThoseOutsideTheTable := by
  refine ⟨fun c op rest => ⟨fun h => ?_, decodeWith_of_not_mem rest⟩, fun c hv rest => decodeWith_of_not_mem rest hv.2,
    fun rest => decodeWith_of_not_mem rest (by decide), length_unknownBytes defaultOpcodes_valid⟩
  rcases decodeWith_reject h with ⟨hop, -⟩ | ⟨-, he⟩
  · exact hop
  · cases he

/-- Settles O9: the comment and the blank before it fall away, and the digits of a byte have its value. -/
theorem imageTextLoadsAsItsBytes : Obligations.ImageTextLoadsAsItsBytes := by
  intro lines comment
  have hplain : ∀ l : Byte × List Char, parseImageLine (imageLineOf l.1) = .byte l.1 := fun l => by
    simpa using parseImageLine_imageLineOf_append l.1 (tail := []) (by simp [uncomment])
  have hcommented : ∀ l : Byte × List Char, parseImageLine (imageLineOf l.1 ++ ' ' :: '#' :: l.2) = .byte l.1 := fun l =>
    parseImageLine_imageLineOf_append l.1 (by simp [uncomment, isBlankChar])
  exact ⟨parseImage_map hcommented lines, parseImage_map hplain lines, rfl⟩

/-- Settles O8: each word is the encoding of its instruction. -/
theorem writtenOutWordsDecode : Obligations.WrittenOutWordsDecode := by
  unfold Obligations.WrittenOutWordsDecode
  refine ⟨?_, ?_, ?_, ?_, ?_, ?_, ?_, ?_⟩ <;> exact decode_of_encode_eq rfl
end

section
/-! SUPPORT. A word placed at pc as the fetch reads it (70_reset_and_hazards.md R173; log entry 6), and how a run ends (40_fetch_decode.md R95). -/

namespace Sys2Proof

/-- A table word the decoder accepts is three bytes that decode, some of them perhaps left over. -/
theorem decode_tableBytes_of_decodeTableWord {nbits w : Nat} {i : Instr} (h : decodeTableWord nbits w = some i) :
    ∃ rest, decode (tableBytes nbits w) = .ok i rest := by
  unfold decodeTableWord at h
  split at h
  next rest hd => cases h; exact ⟨rest, hd⟩
  next => cases h

end Sys2Proof

namespace Sys2Proof.Machine

/-! ## The fetch of a placed word (R173) -/

@[simp] theorem withFetchWord_pc (s : State) (nbits w : Nat) : (s.withFetchWord nbits w).pc = s.pc := rfl

theorem withFetchWord_running (s : State) (nbits w : Nat) : (s.withFetchWord nbits w).Running := ⟨rfl, rfl⟩

/-- Each of the three cells from pc holds its byte of the word placed there (R54). -/
theorem withFetchWord_readByte {s : State} (hpc : s.pc.toNat ≤ 0xFD) (nbits w : Nat) {k : Nat} (hk : k < 3) :
    (s.withFetchWord nbits w).readByte (s.pc + BitVec.ofNat 8 k) = (tableBytes nbits w).getD k 0 := by
  have hlen : (tableBytes nbits w).length = 3 := rfl
  have haddr : (s.pc + BitVec.ofNat 8 k).toNat = s.pc.toNat + k := by
    simp only [BitVec.toNat_add, BitVec.toNat_ofNat]
    omega
  calc (s.withFetchWord nbits w).readByte (s.pc + BitVec.ofNat 8 k)
      = (s.mem.storeFrom s.pc.toNat (tableBytes nbits w)).read (s.pc + BitVec.ofNat 8 k) := rfl
    _ = (tableBytes nbits w).getD k 0 := by
      rw [Memory.read_storeFrom _ _ _ _ (by omega), if_pos (by omega), haddr, Nat.add_sub_cancel_left]

/-- Where three bytes fit the next fetch sees exactly the word's bytes (R90). -/
theorem withFetchWord_fetchWindow {s : State} (hpc : s.pc.toNat ≤ 0xFD) (nbits w : Nat) :
    (s.withFetchWord nbits w).fetchWindow = tableBytes nbits w := by
  apply List.ext_getElem?
  intro k
  by_cases hk : k < 3
  · rw [fetchWindow_getElem? hk (by rw [withFetchWord_pc]; omega), withFetchWord_pc, withFetchWord_readByte hpc nbits w hk,
      List.getD_eq_getElem _ _ hk, List.getElem?_eq_getElem hk]
  · rw [List.getElem?_eq_none (by rw [fetchWindow_length]; omega), List.getElem?_eq_none (not_lt.1 hk)]

/-! ## The end of a run (R95) -/

/-- ALU_UNSUPPORTED is the cause of no well-formed record (R144). -/
theorem FaultRecord.cause_ne_aluUnsupported {r : FaultRecord} (h : r.wf = true) : r.cause ≠ .aluUnsupported := by
  intro hc
  simp [FaultRecord.wf, hc] at h

/-- From a stopped core a run goes nowhere (R30, R31). -/
theorem Reaches.eq_of_not_running {c : Opcodes} {t u : State} (h : Reaches c t u) (hstop : ¬t.Running) : u = t := by
  induction h with
  | start => rfl
  | step _ hstep ih => exact absurd (ih ▸ (stepWith_cases hstep).1) hstop

/-- A stopped core that meets the invariant is halted without a fault, or has a well-formed fault record and is not halted (R95). -/
theorem State.Inv.halted_or_faulted {t : State} (hi : t.Inv) (hstop : ¬t.Running) :
    (t.halted = true ∧ t.fault = none) ∨ (t.halted = false ∧ ∃ r, t.fault = some r ∧ r.wf = true) := by
  obtain ⟨_, _, hexcl, hwf⟩ := hi
  cases hf : t.fault with
  | none =>
    cases hh : t.halted with
    | true => exact .inl ⟨rfl, rfl⟩
    | false => exact absurd ⟨hh, hf⟩ hstop
  | some r =>
    cases hh : t.halted with
    | true => exact absurd ⟨hh, by rw [hf]; rfl⟩ hexcl
    | false => exact .inr ⟨rfl, r, rfl, by simpa [hf] using hwf⟩

/-- A run from a core that is not halted keeps the invariant, and halts only at an HLT byte (R112). -/
theorem Reaches.inv_and_halted_at_hlt {c : Opcodes} {s t : State} (h : Reaches c s t) (hi : s.Inv)
    (hs : s.halted = false) : t.Inv ∧ (t.halted = true → t.readByte t.pc = 0x01) := by
  induction h with
  | start => exact ⟨hi, fun hh => by simp [hs] at hh⟩
  | step _ hstep ih => exact stepKeepsTheInvariantAndHaltedAtAnHltByte c _ _ ih.1 ih.2 hstep

end Sys2Proof.Machine
end

section
/-! PROOFS. The statements about the fetch, the decoded instruction's step and the end of a run (40_fetch_decode.md). -/

open Sys2Proof Sys2Proof.Machine

/-- Settles O12: the next fetch sees the word's own bytes, which decode to the instruction. -/
theorem placedWordIsTheNextInstruction : Obligations.PlacedWordIsTheNextInstruction := by
  intro s nbits w i hpc hword
  obtain ⟨rest, hd⟩ := decode_tableBytes_of_decodeTableWord hword
  rw [← withFetchWord_fetchWindow hpc] at hd
  exact stepWith_of_decoded (withFetchWord_running s nbits w) hd

/-- Settles O53: the invariant keeps halted and the fault record apart along the run, and a stopped core takes no step. -/
theorem runsEndInExactlyOneWay : Obligations.RunsEndInExactlyOneWay := by
  intro c image s t hboot hreach hstop
  have hs : s.halted = false := by rw [(bootState_eq_some.1 hboot).2]; rfl
  obtain ⟨hi, hhlt⟩ := hreach.inv_and_halted_at_hlt (everyBootStateMeetsTheInvariant image s hboot) hs
  refine ⟨?_, fun u hu => hu.eq_of_not_running hstop⟩
  rcases hi.halted_or_faulted hstop with ⟨hh, hf⟩ | ⟨hh, r, hf, hwf⟩
  · exact .inl ⟨hh, hf, hhlt hh, stepWith_halted hf hh⟩
  · exact .inr ⟨hh, r, hf, FaultRecord.cause_ne_aluUnsupported hwf, stepWith_faulted hf⟩

/-- Settles O10. -/
theorem stepRunsTheDecodedInstruction : Obligations.StepRunsTheDecodedInstruction :=
  ⟨fun _ _ _ _ hrun hd => stepWith_of_decoded hrun hd, fun _ => rfl⟩
end

section
/-! SUPPORT. What the ALU's three functions give, and the state an instruction leaves that ends in Advance: where it completes, and where
it falls through the end of memory (41_alu.md R100 to R103; 40_fetch_decode.md R93; 60_exceptions.md R145, R146). -/

namespace Sys2Proof.Machine

/-! ## The ALU's functions -/

theorem aluAdd_toNat (va vb : Byte) : (aluAdd va vb).toNat = (va.toNat + vb.toNat) % 256 := by
  simp [aluAdd]

theorem aluMul_toNat (va vb : Byte) : (aluMul va vb).toNat = (va.toNat * vb.toNat) % 256 := by
  simp [aluMul]

/-- Everything the comparison can answer (R102). -/
theorem aluCompare_cases (va vb : Byte) :
    (va.toNat < vb.toNat ∧ aluCompare va vb = ⟨true, false, false⟩) ∨
      (vb.toNat < va.toNat ∧ aluCompare va vb = ⟨false, true, false⟩) ∨
      (va = vb ∧ aluCompare va vb = ⟨false, false, true⟩) := by
  rcases lt_trichotomy va.toNat vb.toNat with h | h | h
  · exact .inl ⟨h, if_pos h⟩
  · obtain rfl := BitVec.eq_of_toNat_eq h
    exact .inr (.inr ⟨rfl, by simp [aluCompare]⟩)
  · exact .inr (.inl ⟨h, by simp [aluCompare, h, h.le]⟩)

theorem aluCompare_less_iff (va vb : Byte) : (aluCompare va vb).less = true ↔ va.toNat < vb.toNat := by
  rcases aluCompare_cases va vb with ⟨h, hf⟩ | ⟨h, hf⟩ | ⟨rfl, hf⟩
  · simp only [hf, h]
  · simp only [hf, h.asymm, Bool.false_eq_true]
  · simp only [hf, lt_irrefl, Bool.false_eq_true]

theorem aluCompare_greater_iff (va vb : Byte) : (aluCompare va vb).greater = true ↔ vb.toNat < va.toNat := by
  rcases aluCompare_cases va vb with ⟨h, hf⟩ | ⟨h, hf⟩ | ⟨rfl, hf⟩
  · simp only [hf, h.asymm, Bool.false_eq_true]
  · simp only [hf, h]
  · simp only [hf, lt_irrefl, Bool.false_eq_true]

theorem aluCompare_equal_iff (va vb : Byte) : (aluCompare va vb).equal = true ↔ va = vb := by
  rcases aluCompare_cases va vb with ⟨h, hf⟩ | ⟨h, hf⟩ | ⟨rfl, hf⟩
  · simp only [hf, ne_of_apply_ne BitVec.toNat h.ne, Bool.false_eq_true]
  · simp only [hf, ne_of_apply_ne BitVec.toNat h.ne', Bool.false_eq_true]
  · simp only [hf]

/-! ## The checks before the effect -/

/-- Every instruction checks its operands before its own rule (R145, R146 case (a), R149 items 2 and 3). -/
theorem operandFaults (i : Instr) (s : State) : OperandFaults i s :=
  ⟨fun h => exec_of_trap (.range h), fun _ _ _ hfit hops hbefore hbad => exec_of_trap (.reg hfit hops hbefore hbad)⟩

/-! ## Instructions that end in Advance (R93) -/

section
variable {i : Instr} {s u : State} {n : Nat}

/-- Where the successor lies in memory, the instruction completes. -/
theorem Effect.exec_completes (he : Effect i s (u.advance s.origin n)) (h : s.pc.toNat + n ≤ 0xFF) :
    exec i s = .next (u.setPc (BitVec.ofNat 8 (s.pc.toNat + n))) := by
  rw [exec_of_effect he, u.advance_fit s.origin n h, State.origin_addr]

/-- Where it does not, the effect stands and the fall-through's fault follows (R146 case (b)). -/
theorem Effect.exec_fallsThrough (he : Effect i s (u.advance s.origin n)) (h : 0xFF < s.pc.toNat + n) :
    exec i s = .next { u with pc := 0, fault := some (faultHere s .addrRange 0) } := by
  rw [exec_of_effect he, u.advance_over s.origin n h]
  rfl

/-- The successor's address is the sum itself where it lies in memory. -/
theorem ofNat_successor_toNat (h : s.pc.toNat + n ≤ 0xFF) :
    (BitVec.ofNat 8 (s.pc.toNat + n)).toNat = s.pc.toNat + n :=
  (BitVec.toNat_ofNat _ _).trans (Nat.mod_eq_of_lt (Nat.lt_succ_of_le h))

/-- Registers that a register write leaves hold what they held (R20). -/
theorem sameRegsBut_of_writeReg {t : State} {q : Reg} {v : Byte} (h : t.regs = (s.writeReg q v).regs) :
    SameRegsBut [q] s t := fun p hp => by
  have hread : t.readReg p = (s.writeReg q v).readReg p := congrArg (·[p]) h
  rw [hread, State.writeReg_readReg, if_neg (mt List.mem_singleton.2 hp)]

/-- An instruction whose effect is one register write, where it completes: the write, pc, and nothing else. -/
theorem Effect.writeReg_completes {q : Reg} {v : Byte} (he : Effect i s ((s.writeReg q v).advance s.origin n))
    (h : s.pc.toNat + n ≤ 0xFF) : ∃ t, exec i s = .next t ∧ t.readReg q = v ∧ SameRegsBut [q] s t ∧
      t.pc.toNat = s.pc.toNat + n ∧ t = { s with regs := t.regs, pc := t.pc } :=
  ⟨_, he.exec_completes h, by simp, sameRegsBut_of_writeReg rfl, ofNat_successor_toNat h, rfl⟩

/-- The same instruction where it falls through the end of memory: the write, then the fault. -/
theorem Effect.writeReg_fallsThrough {q : Reg} {v : Byte} (he : Effect i s ((s.writeReg q v).advance s.origin n))
    (h : 0xFF < s.pc.toNat + n) : ∃ t, exec i s = .next t ∧ t.readReg q = v ∧ SameRegsBut [q] s t ∧
      t = { s with regs := t.regs, pc := 0, fault := some (faultHere s .addrRange 0) } :=
  ⟨_, he.exec_fallsThrough h, (s.writeReg_readReg q q v).trans (if_pos rfl), sameRegsBut_of_writeReg rfl, rfl⟩

end

/-- A three-byte instruction at 0xFD lies in memory, and its successor does not (R146). -/
theorem fits_and_overruns_of_pc_eq {s : State} (h : s.pc = 0xFD) : s.pc.toNat + 3 ≤ 0x100 ∧ 0xFF < s.pc.toNat + 3 := by
  rw [h]
  decide

end Sys2Proof.Machine
end

section
/-! PROOFS. The statements about ADD, MUL and CMP (41_alu.md R100 to R102). -/

open Sys2Proof Sys2Proof.Machine

/-- Settles O19: ADD's effect is one register write and Advance, and the value written is the sum modulo 256. -/
theorem addFollowsItsRule : Obligations.AddFollowsItsRule := by
  refine ⟨fun _ _ _ => rfl, fun _ _ s => operandFaults _ s, fun a b s h => ?_, fun a b s hpc => ?_⟩
  · obtain ⟨t, he, hval, hrest⟩ := (Effect.add a b (h.trans (by decide))).writeReg_completes h
    exact ⟨t, he, hval ▸ aluAdd_toNat _ _, hrest⟩
  · obtain ⟨hfit, hover⟩ := fits_and_overruns_of_pc_eq hpc
    obtain ⟨t, he, hval, hrest⟩ := (Effect.add a b hfit).writeReg_fallsThrough hover
    exact ⟨t, he, hval ▸ aluAdd_toNat _ _, hrest⟩

/-- Settles O20: as ADD, with the product modulo 256. -/
theorem mulFollowsItsRule : Obligations.MulFollowsItsRule := by
  refine ⟨fun _ _ _ => rfl, fun _ _ s => operandFaults _ s, fun a b s h => ?_, fun a b s hpc => ?_⟩
  · obtain ⟨t, he, hval, hrest⟩ := (Effect.mul a b (h.trans (by decide))).writeReg_completes h
    exact ⟨t, he, hval ▸ aluMul_toNat _ _, hrest⟩
  · obtain ⟨hfit, hover⟩ := fits_and_overruns_of_pc_eq hpc
    obtain ⟨t, he, hval, hrest⟩ := (Effect.mul a b hfit).writeReg_fallsThrough hover
    exact ⟨t, he, hval ▸ aluMul_toNat _ _, hrest⟩

/-- Settles O21: CMP's effect is the write of the three flags and Advance, and each flag is its side of the comparison. -/
theorem cmpFollowsItsRule : Obligations.CmpFollowsItsRule := by
  refine ⟨fun _ _ _ => rfl, fun _ _ s => operandFaults _ s, fun a b s h => ?_, fun a b s hpc => ?_⟩
  · exact ⟨_, (Effect.cmp a b (h.trans (by decide))).exec_completes h, aluCompare_less_iff _ _, aluCompare_greater_iff _ _,
      aluCompare_equal_iff _ _, ofNat_successor_toNat h, rfl⟩
  · obtain ⟨hfit, hover⟩ := fits_and_overruns_of_pc_eq hpc
    exact ⟨_, (Effect.cmp a b hfit).exec_fallsThrough hover, aluCompare_less_iff _ _, aluCompare_greater_iff _ _,
      aluCompare_equal_iff _ _, rfl⟩
end

section
/-! SUPPORT. A two-byte instruction in the last two cells, and the step at an HLT byte (60_exceptions.md R146; 40_fetch_decode.md R90). -/

namespace Sys2Proof.Machine

/-- A two-byte instruction at 0xFE lies in memory, and its successor does not (R146). -/
theorem twoBytes_fit_and_overrun_of_pc_eq {s : State} (h : s.pc = 0xFE) :
    s.pc.toNat + 2 ≤ 0x100 ∧ 0xFF < s.pc.toNat + 2 := by
  rw [h]
  decide

/-- A running core with 0x01 at pc executes HLT whatever bytes follow, also at 0xFF, where none do (R71, R112). -/
theorem stepWith_of_readByte_pc_eq_hlt {c : Opcodes} (hv : c.Valid) {s : State} (hrun : s.Running)
    (h : s.readByte s.pc = 0x01) : stepWith c s = exec .hlt s := by
  have hwin : s.fetchWindow = encodeWith c .hlt ++ s.operandWindow := by
    rw [fetchWindow_cons, h]
    rfl
  exact stepWith_of_decoded hrun (hwin ▸ decodeWith_encodeWith_append hv .hlt s.operandWindow)

end Sys2Proof.Machine
end

section
/-! PROOFS. The statements about LDI, PRN and HLT (42_data_movement.md R110 to R112). -/

open Sys2Proof Sys2Proof.Machine

/-- Settles O22: LDI's effect is the write of the immediate and Advance. -/
theorem ldiFollowsItsRule : Obligations.LdiFollowsItsRule := by
  refine ⟨fun _ _ _ => rfl, fun _ _ s => operandFaults _ s, fun q imm s h => ?_, fun q imm s hpc => ?_⟩
  · exact (Effect.ldi q imm (h.trans (by decide))).writeReg_completes h
  · obtain ⟨hfit, hover⟩ := fits_and_overruns_of_pc_eq hpc
    exact (Effect.ldi q imm hfit).writeReg_fallsThrough hover

/-- Settles O23: PRN's effect is one emission and Advance, so the byte is out before the fall-through's fault. -/
theorem prnFollowsItsRule : Obligations.PrnFollowsItsRule := by
  refine ⟨fun _ _ => rfl, fun _ s => operandFaults _ s, fun q s h => ?_, fun q s hpc => ?_⟩
  · exact ⟨_, (Effect.prn q (h.trans (by decide))).exec_completes h, ofNat_successor_toNat h, rfl⟩
  · obtain ⟨hfit, hover⟩ := twoBytes_fit_and_overrun_of_pc_eq hpc
    exact (Effect.prn q hfit).exec_fallsThrough hover

/-- Settles O24: HLT only sets halted, a halted core takes no step, and 0x01 at pc is HLT in every assignment. -/
theorem hltFollowsItsRule : Obligations.HltFollowsItsRule := by
  refine ⟨fun _ => rfl, fun s => ⟨?_, fun hf c => ?_, fun c hv hrun h => ?_⟩⟩
  · exact exec_of_effect .hlt
  · exact stepWith_halted hf rfl
  · exact (stepWith_of_readByte_pc_eq_hlt hv hrun h).trans (exec_of_effect .hlt)
end

section
/-! SUPPORT. What PUSH and POP leave once they pass their checks, said once for one that completes and one that falls through the end
of memory (43_stack.md R120 to R123). -/

namespace Sys2Proof.Machine

section
variable {s t : State} {q : Reg}

/-- Above the overflow bound sp - 1 does not wrap (R120, R124). -/
theorem State.pushSlot_toNat (hs : 2 ≤ s.sp.toNat) : s.pushSlot.toNat = s.sp.toNat - 1 :=
  BitVec.toNat_sub_of_le (BitVec.le_def.2 (Nat.one_le_of_lt hs))

/-- PUSH moves sp down by one and stores at the new sp, for R7 the new sp itself; other registers and cells stay (R121, R123). -/
theorem exec_push_stores (he : exec (.push (regByte q)) s = .next t) (hfit : s.pc.toNat + 2 ≤ 0x100) (hs : 2 ≤ s.sp.toNat) :
    t.sp.toNat = s.sp.toNat - 1 ∧ SameRegsBut [7] s t ∧ t.readByte t.sp = (if q = 7 then t.sp else s.readReg q) ∧
      SameMemoryBut t.sp s t := by
  have ht := Host.Outcome.next.inj (he.symm.trans (exec_of_effect (.push q hfit hs)))
  have hsp : t.sp = s.pushSlot := by simp [ht]
  have hmem := (congrArg State.mem ht).trans (State.advance_mem _ _ _)
  rw [hsp]
  exact ⟨State.pushSlot_toNat hs, fun p hp => exec_readReg he (mt List.mem_singleton.2 hp), by simp [ht],
    sameMemoryBut_of_write hmem⟩

/-- POP moves the byte at sp to its register, then sp, as that write leaves it, up by one (R122, R123). -/
theorem exec_pop_loads (he : exec (.pop (regByte q)) s = .next t) (hfit : s.pc.toNat + 2 ≤ 0x100) (hs : s.sp.toNat < 0xF4) :
    SameRegsBut [q, 7] s t ∧ (q ≠ 7 → t.readReg q = s.readByte s.sp ∧ t.sp.toNat = s.sp.toNat + 1) ∧
      (q = 7 → t.sp.toNat = ((s.readByte s.sp).toNat + 1) % 256) := by
  have hregs : SameRegsBut [q, 7] s t := fun p hp => by
    obtain ⟨hpq, hp7⟩ : p ≠ q ∧ p ≠ 7 := by simpa using hp
    exact exec_readReg he (not_or.2 ⟨hp7, mt regByte_inj.1 hpq⟩)
  have ht := Host.Outcome.next.inj (he.symm.trans (exec_of_effect (.pop q hfit hs)))
  have hsp : t.sp = (if q = 7 then s.readByte s.sp else s.sp) + 1 := by simp [ht]
  refine ⟨hregs, fun hq => ⟨by simp [ht, hq, spIndex_eq], ?_⟩, fun hq => ?_⟩
  · rw [hsp, if_neg hq]
    bv_omega
  · rw [hsp, if_pos hq]
    exact BitVec.toNat_add _ _

end

end Sys2Proof.Machine
end

section
/-! PROOFS. The statements about PUSH and POP (43_stack.md R121 to R123). -/

open Sys2Proof Sys2Proof.Machine

/-- Settles O25: whether PUSH completes or falls through, its store and its new sp are the ones `exec_push_stores` gives. -/
theorem pushFollowsItsRule : Obligations.PushFollowsItsRule := by
  refine ⟨fun _ _ => rfl, fun _ s => operandFaults _ s, fun q s hfit hs => exec_of_trap (.pushLow hfit hs), fun q s h hs => ?_,
    fun q s hpc hs => ?_⟩
  · have hfit : s.pc.toNat + 2 ≤ 0x100 := h.trans (by decide)
    have he := (Effect.push q hfit hs).exec_completes h
    obtain ⟨hsp, hregs, hcell, hmem⟩ := exec_push_stores he hfit hs
    exact ⟨_, he, hsp, hregs, hcell, hmem, ofNat_successor_toNat h, rfl⟩
  · obtain ⟨hfit, hover⟩ := twoBytes_fit_and_overrun_of_pc_eq hpc
    have he := (Effect.push q hfit hs).exec_fallsThrough hover
    obtain ⟨hsp, hregs, hcell, hmem⟩ := exec_push_stores he hfit hs
    exact ⟨_, he, hsp, hregs, hcell, hmem, rfl⟩

/-- Settles O26: as PUSH, with the load and the new sp of `exec_pop_loads`. -/
theorem popFollowsItsRule : Obligations.PopFollowsItsRule := by
  refine ⟨fun _ _ => rfl, fun _ s => operandFaults _ s, fun q s hfit hs => exec_of_trap (.popHigh hfit hs), fun q s h hs => ?_,
    fun q s hpc hs => ?_⟩
  · have hfit : s.pc.toNat + 2 ≤ 0x100 := h.trans (by decide)
    have he := (Effect.pop q hfit hs).exec_completes h
    obtain ⟨hregs, hother, hself⟩ := exec_pop_loads he hfit hs
    exact ⟨_, he, hregs, hother, hself, ofNat_successor_toNat h, rfl⟩
  · obtain ⟨hfit, hover⟩ := twoBytes_fit_and_overrun_of_pc_eq hpc
    have he := (Effect.pop q hfit hs).exec_fallsThrough hover
    obtain ⟨hregs, hother, hself⟩ := exec_pop_loads he hfit hs
    exact ⟨_, he, hregs, hother, hself, rfl⟩

/-- Settles O28: the POP reads the cell the PUSH stored to, and its increment undoes the decrement. -/
theorem pushThenPopGivesTheValueBack : Obligations.PushThenPopGivesTheValueBack := by
  intro p q s hp hq hpc hlow hhigh
  obtain ⟨-, -, -, hpush, -⟩ := pushFollowsItsRule
  obtain ⟨-, -, -, hpop, -⟩ := popFollowsItsRule
  obtain ⟨t, het, htsp, htregs, hcell, -, htpc, -⟩ := hpush p s (by omega) hlow
  obtain ⟨u, heu, huregs, hpopped, -⟩ := hpop q t (by omega) (by omega)
  obtain ⟨hval, husp⟩ := hpopped hq
  have hsp : u.sp = s.sp := BitVec.eq_of_toNat_eq (by omega)
  refine ⟨t, u, het, heu, ?_, hsp, fun r hr => ?_⟩
  · rw [hval, hcell, if_neg hp]
  · by_cases h7 : r = 7
    · exact h7 ▸ hsp
    · have hru : r ∉ [q, 7] := by simpa [h7] using hr
      rw [huregs r hru, htregs r (mt List.mem_singleton.1 h7)]
end

section
/-! SUPPORT. What a CALL, a RET and a conditional jump that is not taken leave once they pass their checks (44_control_flow.md R130 to
R134). -/

namespace Sys2Proof.Machine

section
variable {i : Instr} {s t : State} {q : Reg}

/-- Where the address after a CALL lies in memory, the byte stored as the return address is that address (R130). -/
theorem State.returnAddr_toNat (h : s.pc.toNat + 2 ≤ 0xFF) : s.returnAddr.toNat = s.pc.toNat + 2 :=
  ofNat_successor_toNat h

/-- CALL moves sp down by one, stores the return address at the new sp, and reads its target after that: for R7 the new sp (R130, R135). -/
theorem exec_call_stores (he : exec (.call (regByte q)) s = .next t) (h : s.pc.toNat + 2 ≤ 0xFF) (hs : 2 ≤ s.sp.toNat) :
    t.sp.toNat = s.sp.toNat - 1 ∧ SameRegsBut [7] s t ∧ (t.readByte t.sp).toNat = s.pc.toNat + 2 ∧ SameMemoryBut t.sp s t ∧
      t.pc = (if q = 7 then t.sp else s.readReg q) := by
  have ht := Host.Outcome.next.inj (he.symm.trans (exec_of_effect (.call q h hs)))
  have hsp : t.sp = s.pushSlot := by simp [ht]
  have hcell : t.readByte s.pushSlot = s.returnAddr := by simp [ht]
  rw [hsp, hcell]
  exact ⟨State.pushSlot_toNat hs, fun p hp => exec_readReg he (mt List.mem_singleton.2 hp), State.returnAddr_toNat h,
    sameMemoryBut_of_write (congrArg State.mem ht), congrArg State.pc ht⟩

/-- RET takes pc from the byte at sp and moves sp up by one, which cannot wrap below the underflow bound (R131). -/
theorem exec_ret_loads (he : exec .ret s = .next t) (hs : s.sp.toNat < 0xF4) :
    t.pc = s.readByte s.sp ∧ t.sp.toNat = s.sp.toNat + 1 ∧ SameRegsBut [7] s t := by
  have ht := Host.Outcome.next.inj (he.symm.trans (exec_of_effect (.ret hs)))
  have hsp : t.sp = s.sp + 1 := by simp [ht]
  refine ⟨congrArg State.pc ht, ?_, fun p hp => exec_readReg he (mt List.mem_singleton.2 hp)⟩
  rw [hsp]
  bv_omega

/-- An instruction whose whole effect is Advance, where it completes: pc moves to its successor, and nothing else changes (R93). -/
theorem Effect.advance_completes {n : Nat} (he : Effect i s (s.advance s.origin n)) (h : s.pc.toNat + n ≤ 0xFF) :
    ∃ t, exec i s = .next t ∧ t.pc.toNat = s.pc.toNat + n ∧ t = { s with pc := t.pc } :=
  ⟨_, he.exec_completes h, ofNat_successor_toNat h, rfl⟩

end

end Sys2Proof.Machine
end

section
/-! PROOFS. The statements about CALL, RET and the jumps (44_control_flow.md R130 to R135). -/

open Sys2Proof Sys2Proof.Machine

/-- Settles O29: CALL traps at 0xFE before it looks at sp, and otherwise leaves what `exec_call_stores` says. -/
theorem callFollowsItsRule : Obligations.CallFollowsItsRule := by
  refine ⟨fun _ _ => rfl, fun _ s => operandFaults _ s, fun q s hpc => ?_, fun q s h hs => ?_, fun q s h hs => ?_⟩
  · exact exec_of_trap (.returnAddr (congrArg BitVec.toNat hpc))
  · exact exec_of_trap (.callLow h hs)
  · have he := exec_of_effect (.call q h hs)
    obtain ⟨hsp, hregs, hcell, hmem, hpc⟩ := exec_call_stores he h hs
    exact ⟨_, he, hsp, hregs, hcell, hmem, hpc, rfl⟩

/-- Settles O30: RET has no operand to check, so its one fault is the underflow. -/
theorem retFollowsItsRule : Obligations.RetFollowsItsRule := by
  refine ⟨fun _ => rfl, fun s hs => exec_of_trap (.retHigh hs), fun s hs => ?_⟩
  have he := exec_of_effect (.ret hs)
  obtain ⟨hpc, hsp, hregs⟩ := exec_ret_loads he hs
  exact ⟨_, he, hpc, hsp, hregs, rfl⟩

/-- Settles O31: JMP does not advance, so both its bytes in memory are all it needs. -/
theorem jmpFollowsItsRule : Obligations.JmpFollowsItsRule :=
  ⟨fun _ _ => rfl, fun _ s => operandFaults _ s, fun q _ hfit => exec_of_effect (.jmp q hfit)⟩

/-- Settles O32: JEQ's effect is JMP's where Equal is 1 and Advance where it is 0. -/
theorem jeqFollowsItsRule : Obligations.JeqFollowsItsRule := by
  refine ⟨fun _ _ => rfl, fun _ s => operandFaults _ s, fun q s hfit heq => ?_, fun q s h hne => ?_, fun q s hpc hne => ?_⟩
  · exact exec_of_effect (.jeqTaken q hfit heq)
  · exact (Effect.jeqNot q (h.trans (by decide)) hne).advance_completes h
  · obtain ⟨hfit, hover⟩ := twoBytes_fit_and_overrun_of_pc_eq hpc
    exact (Effect.jeqNot q hfit hne).exec_fallsThrough hover

/-- Settles O33: JNE's effect is JMP's where Equal is 0 and Advance where it is 1. -/
theorem jneFollowsItsRule : Obligations.JneFollowsItsRule := by
  refine ⟨fun _ _ => rfl, fun _ s => operandFaults _ s, fun q s hfit hne => ?_, fun q s h heq => ?_, fun q s hpc heq => ?_⟩
  · exact exec_of_effect (.jneTaken q hfit hne)
  · exact (Effect.jneNot q (h.trans (by decide)) heq).advance_completes h
  · obtain ⟨hfit, hover⟩ := twoBytes_fit_and_overrun_of_pc_eq hpc
    exact (Effect.jneNot q hfit heq).exec_fallsThrough hover

/-- Settles O34: the RET reads the cell the CALL stored its return address in, and its increment undoes the decrement. -/
theorem returnResumesAfterTheCall : Obligations.ReturnResumesAfterTheCall := by
  intro q s t u hpc hlow hhigh hcall husp hucell
  obtain ⟨htsp, -, htcell, -⟩ := exec_call_stores hcall hpc hlow
  have hu : u.sp.toNat = s.sp.toNat - 1 := husp ▸ htsp
  have hret : u.sp.toNat < 0xF4 := by omega
  have he := exec_of_effect (.ret hret)
  obtain ⟨hvpc, hvsp, -⟩ := exec_ret_loads he hret
  refine ⟨_, he, ?_, BitVec.eq_of_toNat_eq (by omega)⟩
  rw [hvpc, hucell, htcell]
end

section
/-! SUPPORT. The length and the instruction an opcode byte gives, and the faults of the fetch (30_encoding.md R79, R83;
60_exceptions.md R143, R146 case (a)). -/

namespace Sys2Proof

/-! ## The length an opcode byte gives (R83) -/

/-- A format's length counts the opcode byte and the operand bytes it reads. -/
theorem Form.Makes.length {f : Form} {ops : List Byte} {i : Instr} (h : f.Makes ops i) : f.length = ops.length + 1 := by
  cases h <;> rfl

theorem Form.length_le_three (f : Form) : f.length ≤ 3 := by
  cases f <;> simp [Form.length]

/-- Reading operands fails only where the bytes, with the opcode byte, are fewer than the format has. -/
theorem decodeOperands_reject_length {op : Byte} {f : Form} {bytes : List Byte} {e : DecodeError}
    (h : decodeOperands op f bytes = .reject e) : bytes.length + 1 < f.length := by
  cases f with
  | z make => cases h
  | r make =>
    match bytes, h with
    | [], _ => simp [Form.length]
  | rr make =>
    match bytes, h with
    | [], _ => simp [Form.length]
    | [_], _ => simp [Form.length]
  | ri make =>
    match bytes, h with
    | [], _ => simp [Form.length]
    | [_], _ => simp [Form.length]

/-! ## The opcode bytes are distinct (R79) -/

/-- The rows stand in the order of the constructors, so an instruction's opcode byte stands in the table at its constructor's index. -/
theorem opcodeBytes_getElem?_ctorIdx (c : Opcodes) (i : Instr) : (opcodeBytes c)[i.ctorIdx]? = some (i.opcode c) := by
  cases i <;> rfl

/-- Under an assignment that meets R79 instructions share an opcode byte exactly when they share a constructor. -/
theorem opcode_eq_iff_ctorIdx_eq {c : Opcodes} (hv : c.Valid) {i j : Instr} :
    i.opcode c = j.opcode c ↔ i.ctorIdx = j.ctorIdx := by
  have hi := opcodeBytes_getElem?_ctorIdx c i
  have hj := opcodeBytes_getElem?_ctorIdx c j
  constructor
  · intro h
    exact (List.getElem?_inj (List.getElem?_eq_some_iff.1 hi).1 hv.1).1 (by rw [hi, hj, h])
  · intro h
    exact Option.some.inj (hi.symm.trans (h ▸ hj))

/-- Asking whether an opcode byte is one of some instructions' asks for the constructor. -/
theorem contains_opcode {c : Opcodes} (hv : c.Valid) (i : Instr) (js : List Instr) :
    (js.map (Instr.opcode c)).contains (i.opcode c) = (js.map Instr.ctorIdx).contains i.ctorIdx := by
  simp [opcode_eq_iff_ctorIdx_eq hv]

/-- The same for one instruction. -/
theorem opcode_beq {c : Opcodes} (hv : c.Valid) (i j : Instr) : (i.opcode c == j.opcode c) = (i.ctorIdx == j.ctorIdx) := by
  rw [Bool.eq_iff_iff, beq_iff_eq, beq_iff_eq, opcode_eq_iff_ctorIdx_eq hv]

end Sys2Proof

namespace Sys2Proof.Machine

/-- The length an opcode byte gives is its row's. -/
theorem opcodeLength_of_row {c : Opcodes} (hv : c.Valid) {row : Row} (h : row ∈ rows c) :
    opcodeLength c row.opcode = row.form.length := by
  simp [opcodeLength, findRow_of_mem hv h]

/-- The length an instruction's opcode byte gives is the instruction's (R83). -/
theorem opcodeLength_opcode {c : Opcodes} (hv : c.Valid) (i : Instr) : opcodeLength c (i.opcode c) = i.length := by
  obtain ⟨row, hmem, hop, hmakes⟩ := exists_row_makes c i
  rw [← hop, opcodeLength_of_row hv hmem, hmakes.length]
  exact encodeWith_length c i

/-! ## The fetch (R90, R143, R146 case (a)) -/

section
variable {c : Opcodes} {s t : State} {i : Instr} {rest : List Byte}

/-- A fetch that decodes finds the whole instruction in memory. -/
theorem opcodeLength_fits_of_decoded (hv : c.Valid) (hd : decodeWith c s.fetchWindow = .ok i rest) :
    s.pc.toNat + opcodeLength c (s.readByte s.pc) ≤ 0x100 := by
  rw [readByte_pc_of_decoded hd, opcodeLength_opcode hv]
  exact decoded_fits hd

/-- A fetch that rejects a byte of the table lacks operand bytes: the instruction would end beyond 0xFF. -/
theorem opcodeLength_overruns_of_reject (hv : c.Valid) {e : DecodeError} (hop : s.readByte s.pc ∈ opcodeBytes c)
    (hd : decodeWith c s.fetchWindow = .reject e) : 0x100 < s.pc.toNat + opcodeLength c (s.readByte s.pc) := by
  obtain ⟨row, hmem, hrow, hops⟩ := decodeWith_of_mem s.operandWindow hop
  have hshort := decodeOperands_reject_length (hops.symm.trans hd)
  have hwin : s.operandWindow.length + 1 = min 3 (0x100 - s.pc.toNat) := fetchWindow_length s
  have hthree := row.form.length_le_three
  rw [← hrow, opcodeLength_of_row hv hmem]
  omega

/-- A byte in no row raises DECODE and changes nothing else (R143). -/
theorem stepWith_of_not_mem (hrun : s.Running) (hop : s.readByte s.pc ∉ opcodeBytes c) :
    stepWith c s = .next (s.raise s.origin .decode 0) :=
  stepWith_of_reject hrun (decodeWith_of_not_mem s.operandWindow hop)

/-- Operand bytes beyond 0xFF raise ADDR_RANGE and change nothing else (R146 case (a)). -/
theorem stepWith_of_overrun (hv : c.Valid) (hrun : s.Running) (hop : s.readByte s.pc ∈ opcodeBytes c)
    (hover : 0x100 < s.pc.toNat + opcodeLength c (s.readByte s.pc)) :
    stepWith c s = .next (s.raise s.origin .addrRange 0) := by
  cases hd : decodeWith c s.fetchWindow with
  | ok i rest => exact absurd (opcodeLength_fits_of_decoded hv hd) (not_le.2 hover)
  | reject e =>
    rcases raiseDecode_of_reject hd with ⟨hno, -⟩ | ⟨-, hraise⟩
    · exact absurd hop hno
    · rw [stepWith_of_reject hrun hd, hraise]

/-- The operand bytes of a decoded instruction are the bytes after pc (R54, R90). -/
theorem readByte_operand_of_decoded (hd : decodeWith c s.fetchWindow = .ok i rest) {k : Nat} {b : Byte}
    (hb : i.operands[k]? = some b) : s.readByte (s.pc + BitVec.ofNat 8 (k + 1)) = b := by
  have hwin := eq_encodeWith_append_of_decodeWith_ok hd
  have hk : k + 1 < i.length := encodeWith_length c i ▸ Nat.succ_lt_succ (List.getElem?_eq_some_iff.1 hb).1
  have hfit := decoded_fits hd
  have hthree := i.length_le_three
  have hread := fetchWindow_getElem? (s := s) (k := k + 1) (by omega) (by omega)
  have henc : s.fetchWindow[k + 1]? = some b := by
    rw [hwin, List.getElem?_append_left (by rwa [encodeWith_length])]
    exact hb
  exact Option.some.inj (hread.symm.trans henc)

end

end Sys2Proof.Machine
end

section
/-! SUPPORT. R149's conditions as the decoded instruction has them, that an instruction raises the first of them that holds, and what its
fault leaves (60_exceptions.md R142 to R151). -/

namespace Sys2Proof.Machine

/-! ## The conditions of an instruction -/

/-- A condition of R149's list: whether it holds, the cause, and the value it records. -/
abbrev Condition := Bool × FaultCause × Byte

/-- R149's item 3: an illegal register operand, in the order the operands are checked (R145). -/
def operandConditions (i : Instr) : List Condition := i.regOperands.map fun b => (decide (7 < b.toNat), .regIndex, b)

/-- What an instruction checks after its operands: CALL's return address and the stack's bounds (R146 case (c), R147, R148). -/
def stackConditions (i : Instr) (s : State) : List Condition :=
  match i with
  | .push _ => [(decide (s.sp.toNat ≤ 1), .stackOverflow, s.sp)]
  | .call _ => [(decide (s.pc = 0xFE), .addrRange, 0), (decide (s.sp.toNat ≤ 1), .stackOverflow, s.sp)]
  | .pop _ | .ret => [(decide (0xF4 ≤ s.sp.toNat), .stackUnderflow, s.sp)]
  | _ => []

/-- Whether an instruction falls through to its successor at this state (R25). -/
def instrFallsThrough (i : Instr) (s : State) : Bool :=
  match i with
  | .jeq _ => !s.flags.equal
  | .jne _ => s.flags.equal
  | .hlt | .call _ | .ret | .jmp _ => false
  | _ => true

/-- The fall through the end of memory (R146 case (b)). -/
def fallThroughCondition (i : Instr) (s : State) : Condition :=
  (instrFallsThrough i s && decide (s.pc.toNat + i.length = 0x100), .addrRange, 0)

/-- The conditions R149 has for an instruction that lies in memory whole. -/
def instrConditions (i : Instr) (s : State) : List Condition :=
  operandConditions i ++ (stackConditions i s ++ [fallThroughCondition i s])

/-- The report of the first condition of a list that holds. -/
def firstRecord (s : State) (conditions : List Condition) : Option FaultRecord :=
  (conditions.find? fun x => x.1).map fun x => faultHere s x.2.1 x.2.2

section
variable {c : Opcodes} {s t : State} {i : Instr} {rest : List Byte} {k : FaultCause} {v : Byte}

@[simp] theorem firstRecord_nil (s : State) : firstRecord s [] = none := rfl

@[simp] theorem firstRecord_true (s : State) (k : FaultCause) (v : Byte) (l : List Condition) :
    firstRecord s ((true, k, v) :: l) = some (faultHere s k v) := rfl

@[simp] theorem firstRecord_false (s : State) (k : FaultCause) (v : Byte) (l : List Condition) :
    firstRecord s ((false, k, v) :: l) = firstRecord s l := rfl

theorem firstRecord_append (s : State) (l l' : List Condition) :
    firstRecord s (l ++ l') = (firstRecord s l).or (firstRecord s l') := by
  simp [firstRecord, Option.map_or]

/-! ## From the bytes at pc to the instruction -/

/-- An opcode byte falls through where its instruction does (R25). -/
theorem fallsThrough_opcode (hv : c.Valid) (i : Instr) (s : State) :
    fallsThrough c (i.opcode c) s = instrFallsThrough i s := by
  have hlist : [c.opcAdd, opcMul, c.opcCmp, opcLdi, opcPrn, c.opcPush, c.opcPop].contains (i.opcode c) = _ :=
    contains_opcode hv i [.add 0 0, .mul 0 0, .cmp 0 0, .ldi 0 0, .prn 0, .push 0, .pop 0]
  have hjeq : (i.opcode c == c.opcJeq) = _ := opcode_beq hv i (.jeq 0)
  have hjne : (i.opcode c == c.opcJne) = _ := opcode_beq hv i (.jne 0)
  rw [fallsThrough, hlist, hjeq, hjne]
  cases i with
  | jeq | jne => simp [instrFallsThrough, Instr.ctorIdx]
  | _ => rfl

/-- The two operand bytes R149's item 3 looks at are the instruction's register operands. -/
theorem firstRecord_operandConditions (hv : c.Valid) (hd : decodeWith c s.fetchWindow = .ok i rest) (l : List Condition) :
    firstRecord s ((decide (2 ≤ i.length) && decide (7 < (s.readByte (s.pc + 1)).toNat), .regIndex, s.readByte (s.pc + 1)) ::
      ([c.opcAdd, opcMul, c.opcCmp].contains (i.opcode c) && decide (7 < (s.readByte (s.pc + 2)).toNat), .regIndex,
        s.readByte (s.pc + 2)) :: l) =
    firstRecord s (operandConditions i ++ l) := by
  have hfirst {b : Byte} (hb : i.operands[0]? = some b) : s.readByte (s.pc + 1) = b := readByte_operand_of_decoded hd hb
  have hsecond {b : Byte} (hb : i.operands[1]? = some b) : s.readByte (s.pc + 2) = b := readByte_operand_of_decoded hd hb
  have hrr : [c.opcAdd, opcMul, c.opcCmp].contains (i.opcode c) = _ :=
    contains_opcode hv i [.add 0 0, .mul 0 0, .cmp 0 0]
  rw [hrr]
  cases i with
  | add | mul | cmp => rw [hfirst rfl, hsecond rfl]; rfl
  | ldi | prn | push | pop | call | jmp | jeq | jne => rw [hfirst rfl]; rfl
  | hlt | ret => rfl

/-- R149's items 4 and 5 for an opcode byte are those of its instruction. -/
theorem firstRecord_stackConditions (hv : c.Valid) (i : Instr) (s : State) (l : List Condition) :
    firstRecord s ((i.opcode c == c.opcCall && decide (s.pc = 0xFE), .addrRange, 0) ::
      ([c.opcPush, c.opcCall].contains (i.opcode c) && decide (s.sp.toNat ≤ 1), .stackOverflow, s.sp) ::
      ([c.opcPop, c.opcRet].contains (i.opcode c) && decide (0xF4 ≤ s.sp.toNat), .stackUnderflow, s.sp) :: l) =
    firstRecord s (stackConditions i s ++ l) := by
  have hcall : (i.opcode c == c.opcCall) = _ := opcode_beq hv i (.call 0)
  have hpush : [c.opcPush, c.opcCall].contains (i.opcode c) = _ := contains_opcode hv i [.push 0, .call 0]
  have hpop : [c.opcPop, c.opcRet].contains (i.opcode c) = _ := contains_opcode hv i [.pop 0, .ret]
  rw [hcall, hpush, hpop]
  cases i <;> rfl

/-- The first fault of the bytes at pc is the first of the instruction they decode to. -/
theorem firstFault_of_decoded (hv : c.Valid) (hd : decodeWith c s.fetchWindow = .ok i rest) :
    firstFault c s = firstRecord s (instrConditions i s) := by
  have hop := readByte_pc_of_decoded hd
  have hknown : (opcodeBytes c).contains (i.opcode c) = true := by
    simpa [hop] using opcode_mem_of_decodeWith_ok hd
  have hfits : decide (0xFF < s.pc.toNat + i.length - 1) = false := by
    have := decoded_fits hd
    exact decide_eq_false (by omega)
  calc firstFault c s = firstRecord s (faultConditions c s) := rfl
    _ = firstRecord s (operandConditions i ++ _) := by
      simp only [faultConditions, hop, hknown, opcodeLength_opcode hv, hfits, fallsThrough_opcode hv, Bool.not_true,
        firstRecord_false]
      exact firstRecord_operandConditions hv hd _
    _ = firstRecord s (instrConditions i s) := by
      rw [firstRecord_append, firstRecord_stackConditions hv, ← firstRecord_append]
      rfl

/-- A byte outside the table is R149's first condition. -/
theorem firstFault_of_not_mem (hop : s.readByte s.pc ∉ opcodeBytes c) :
    firstFault c s = some (faultHere s .decode 0) := by
  simp [firstFault, faultConditions, hop]

/-- Operand bytes beyond 0xFF are its second. -/
theorem firstFault_of_overrun (hop : s.readByte s.pc ∈ opcodeBytes c)
    (hover : 0x100 < s.pc.toNat + opcodeLength c (s.readByte s.pc)) : firstFault c s = some (faultHere s .addrRange 0) := by
  have hrange : 0xFF < s.pc.toNat + opcodeLength c (s.readByte s.pc) - 1 := by omega
  simp [firstFault, faultConditions, hop, hrange]

/-! ## From the conditions to the fault -/

/-- The first illegal operand byte is the one R149's item 3 reports. -/
theorem firstRecord_operandConditions_bad {before after : List Byte} {b : Byte} (ho : i.regOperands = before ++ b :: after)
    (hb : ∀ x ∈ before, x.toNat ≤ 7) (h : 7 < b.toNat) :
    firstRecord s (operandConditions i) = some (faultHere s .regIndex b) := by
  have hnone : firstRecord s (before.map fun b => (decide (7 < b.toNat), .regIndex, b)) = none := by
    simpa [firstRecord] using hb
  rw [operandConditions, ho, List.map_append, firstRecord_append, hnone, List.map_cons, decide_eq_true h]
  rfl

/-- Legal operands meet no operand condition. -/
theorem firstRecord_operandConditions_ok (h : operandsOk i s = true) : firstRecord s (operandConditions i) = none := by
  simpa [firstRecord, operandConditions] using (operandsOk_iff.1 h).2

/-- A trap of an instruction that lies in memory whole reports the first of its conditions. -/
theorem Trap.firstRecord_instrConditions (h : Trap i s k v) (hfit : s.pc.toNat + i.length ≤ 0x100) :
    firstRecord s (instrConditions i s) = some (faultHere s k v) := by
  have hlegal : ∀ q : Reg, ¬7 < q.val := fun q => by omega
  rw [instrConditions]
  cases h with
  | range hl => omega
  | reg hf ho hb hl => rw [firstRecord_append, firstRecord_operandConditions_bad ho hb hl]; rfl
  | returnAddr hl =>
    have hpc : s.pc = 0xFE := BitVec.eq_of_toNat_eq hl
    simp [operandConditions, Instr.regOperands, stackConditions, hlegal, hpc]
  | callLow hf hl =>
    have hpc : s.pc ≠ 254#8 := by bv_omega
    simp [operandConditions, Instr.regOperands, stackConditions, hlegal, hpc, hl]
  | pushLow hf hl | popHigh hf hl | retHigh hl =>
    simp [operandConditions, Instr.regOperands, stackConditions, hlegal, hl]

/-- Where Advance ends an instruction that falls through, the fault it raises is the fall-through's, under its condition. -/
theorem advance_fault_eq_firstRecord {u : State} {n : Nat} (hn : i.length = n) (hfit : s.pc.toNat + n ≤ 0x100)
    (hfall : instrFallsThrough i s = true) (hu : u.fault = none) :
    (u.advance s.origin n).fault = firstRecord s [fallThroughCondition i s] := by
  subst hn
  rw [State.advance_fault, State.origin_addr, fallThroughCondition, hfall, Bool.true_and]
  by_cases h : s.pc.toNat + i.length = 0x100
  · rw [if_neg (by omega), decide_eq_true h]
    rfl
  · rw [if_pos (by omega), decide_eq_false h, hu]
    rfl

/-- An instruction that reaches its own rule has passed its checks of the stack and of the return address. -/
theorem Effect.firstRecord_stackConditions (h : Effect i s t) : firstRecord s (stackConditions i s) = none := by
  cases h with
  | push q hf hs | pop q hf hs | ret hs => simp [stackConditions, not_le.2 hs]
  | call q hf hs =>
    have hpc : s.pc ≠ 254#8 := by bv_omega
    simp [stackConditions, hpc, not_le.2 hs]
  | _ => rfl

/-- An instruction that reaches its own rule is under no condition but the fall-through's. -/
theorem Effect.fault_eq_firstRecord (h : Effect i s t) (hs : s.fault = none) :
    t.fault = firstRecord s (instrConditions i s) := by
  rw [instrConditions, firstRecord_append, firstRecord_operandConditions_ok h.operandsOk, Option.none_or,
    firstRecord_append, h.firstRecord_stackConditions, Option.none_or]
  cases h with
  | add a b hf | mul a b hf | cmp a b hf | ldi q imm hf | prn q hf | push q hf | pop q hf =>
    exact advance_fault_eq_firstRecord rfl hf rfl hs
  | jeqNot q hf he | jneNot q hf he => exact advance_fault_eq_firstRecord rfl hf (by simp [instrFallsThrough, he]) hs
  | jeqTaken q hf he | jneTaken q hf he => simpa [fallThroughCondition, instrFallsThrough, he] using hs
  | hlt | call | ret | jmp => exact hs

/-- Executing an instruction that lies in memory whole raises the first of its conditions that holds, and none where none does. -/
theorem exec_fault_eq_firstRecord (he : exec i s = .next t) (hs : s.fault = none) (hfit : s.pc.toNat + i.length ≤ 0x100) :
    t.fault = firstRecord s (instrConditions i s) := by
  rcases exec_cases he with ⟨k, v, htrap, rfl⟩ | heff
  · exact (htrap.firstRecord_instrConditions hfit).symm
  · exact heff.fault_eq_firstRecord hs

/-! ## Precise faults and the fall-through (R151) -/

/-- An instruction that reaches its own rule keeps the fault record, or ends in Advance, with an effect that does not look at pc. -/
theorem Effect.keeps_fault_or_advances (h : Effect i s t) : t.fault = s.fault ∨
    ∃ u : State, t = u.advance s.origin i.length ∧ u.fault = s.fault ∧ ∀ p : Byte, p.toNat + i.length ≤ 0x100 →
      Effect i (s.setPc p) ((u.setPc p).advance (s.setPc p).origin i.length) := by
  cases h with
  | add a b => exact .inr ⟨_, rfl, rfl, fun p hp => .add a b hp⟩
  | mul a b => exact .inr ⟨_, rfl, rfl, fun p hp => .mul a b hp⟩
  | cmp a b => exact .inr ⟨_, rfl, rfl, fun p hp => .cmp a b hp⟩
  | ldi q imm => exact .inr ⟨_, rfl, rfl, fun p hp => .ldi q imm hp⟩
  | prn q => exact .inr ⟨_, rfl, rfl, fun p hp => .prn q hp⟩
  | push q hf hs => exact .inr ⟨_, rfl, rfl, fun p hp => .push (s := s.setPc p) q hp hs⟩
  | pop q hf hs => exact .inr ⟨_, rfl, rfl, fun p hp => .pop (s := s.setPc p) q hp hs⟩
  | jeqNot q hf he => exact .inr ⟨_, rfl, rfl, fun p hp => .jeqNot q hp he⟩
  | jneNot q hf he => exact .inr ⟨_, rfl, rfl, fun p hp => .jneNot q hp he⟩
  | _ => exact .inl rfl

/-- Where an instruction that reaches its own rule raises a fault, it is the fall-through's, after the effects the instruction has
wherever its successor lies in memory (R146 case (b)). -/
theorem Effect.fallThrough_of_fault {r : FaultRecord} (h : Effect i s t) (hs : s.fault = none) (hr : t.fault = some r) :
    r.cause = .addrRange ∧ t.pc = 0 ∧ 0xFF < s.pc.toNat + i.length ∧ ∀ p : Byte, p.toNat + i.length ≤ 0xFF →
      exec i { s with pc := p } = .next { t with pc := BitVec.ofNat 8 (p.toNat + i.length), fault := none } := by
  rcases h.keeps_fault_or_advances with hkept | ⟨u, rfl, hu, hany⟩
  · rw [hr, hs] at hkept; cases hkept
  rcases u.advance_cases s.origin i.length with ⟨-, hadv⟩ | ⟨hover, hadv⟩
  · rw [hadv] at hr
    exact absurd (hr.symm.trans (hu.trans hs)) nofun
  · rw [hadv] at hr ⊢
    cases hr
    refine ⟨rfl, rfl, hover, fun p hp => ?_⟩
    have hexec : exec i { s with pc := p } = _ := (hany p (by omega)).exec_completes hp
    rw [hexec, ← hu.trans hs]
    rfl

/-! ## The stack's bounds (R147, R148) -/

/-- STACK_OVERFLOW is the trap of a PUSH or CALL with sp at most 1, and records sp. -/
theorem Trap.stackOverflow (h : Trap i s .stackOverflow v) :
    s.sp.toNat ≤ 1 ∧ v = s.sp ∧ ∃ b, i = .push b ∨ i = .call b := by
  cases h with
  | pushLow hf hl => exact ⟨hl, rfl, _, .inl rfl⟩
  | callLow hf hl => exact ⟨hl, rfl, _, .inr rfl⟩

/-- STACK_UNDERFLOW is the trap of a POP or RET with sp at or above 0xF4, and records sp. -/
theorem Trap.stackUnderflow (h : Trap i s .stackUnderflow v) :
    0xF4 ≤ s.sp.toNat ∧ v = s.sp ∧ (i = .ret ∨ ∃ b, i = .pop b) := by
  cases h with
  | popHigh hf hl => exact ⟨hl, rfl, .inr ⟨_, rfl⟩⟩
  | retHigh hl => exact ⟨hl, rfl, .inl rfl⟩

/-! ## The exit status (R142) -/

theorem exitStatus_of_fault {r : FaultRecord} (h : s.fault = some r) : s.exitStatus = some r.cause.code := by
  simp [State.exitStatus, State.stopped, h]

theorem exitStatus_of_halted (hf : s.fault = none) (h : s.halted = true) : s.exitStatus = some 0 := by
  simp [State.exitStatus, State.stopped, hf, h]

theorem exitStatus_of_running (h : s.Running) : s.exitStatus = none := by
  simp [State.exitStatus, stopped_eq_none.2 h]

end

end Sys2Proof.Machine
end

section
/-! PROOFS. The statements about faults (60_exceptions.md R140 to R151). -/

open Sys2Proof Sys2Proof.Machine

/-- Settles O16: the fetch raises items 1 and 2, and a decoded instruction raises the first of its own conditions, which are the
rest of the list for its bytes. -/
theorem stepReportsTheFirstFaultInOrder : Obligations.StepReportsTheFirstFaultInOrder := by
  intro c s t hv hrun h
  obtain ⟨-, ⟨e, hd, rfl⟩ | ⟨i, rest, hd, he⟩⟩ := stepWith_cases h
  · rcases raiseDecode_of_reject hd with ⟨hop, hraise⟩ | ⟨hop, hraise⟩
    · rw [hraise, firstFault_of_not_mem hop]
      rfl
    · rw [hraise, firstFault_of_overrun hop (opcodeLength_overruns_of_reject hv hop hd)]
      rfl
  · rw [firstFault_of_decoded hv hd]
    exact exec_fault_eq_firstRecord he hrun.2 (decoded_fits hd)

/-- Settles O18: traps and the faults of the fetch come before any effect; the one fault an effect ends in is Advance's. -/
theorem faultsArePreciseButTheFallThrough : Obligations.FaultsArePreciseButTheFallThrough := by
  intro c s t r hrun h hr
  obtain ⟨-, ⟨-, rfl⟩ | ⟨-, rfl⟩ | ⟨i, rest, hd, he⟩⟩ := stepWith_raise_or_exec h
  · cases hr
    exact .inl rfl
  · cases hr
    exact .inl rfl
  · rcases exec_cases he with ⟨k, v, -, rfl⟩ | heff
    · cases hr
      exact .inl rfl
    · obtain ⟨hcause, hpc, hover, hany⟩ := heff.fallThrough_of_fault hrun.2 hr
      have hfit := decoded_fits hd
      exact .inr ⟨hcause, hpc, i, rest, hd, by omega, hany⟩

/-- Settles O14: the decoder rejects a byte outside the table, and 0xFF and the default 0x00 are such bytes. -/
theorem unknownOpcodeRaisesDecode : Obligations.UnknownOpcodeRaisesDecode := by
  refine ⟨fun c s hrun hop => ⟨?_, ?_⟩, fun c s hv hrun h => ?_, fun s hrun h => ?_⟩
  · exact stepWith_of_not_mem hrun hop
  · exact exitStatus_of_fault (r := faultHere s .decode 0) rfl
  · exact h ▸ stepWith_of_not_mem hrun (h ▸ hv.2)
  · exact h ▸ stepWith_of_not_mem hrun (h ▸ by decide)

/-- Settles O15: a byte of the table whose row reaches beyond 0xFF cannot decode, so the fetch raises the fault. -/
theorem operandBytesBeyondMemoryRaiseAddrRange : Obligations.OperandBytesBeyondMemoryRaiseAddrRange := by
  intro c s row hv hrun hrow hop hover
  have hmem : s.readByte s.pc ∈ opcodeBytes c := hop ▸ List.mem_map_of_mem hrow
  have hlen : opcodeLength c (s.readByte s.pc) = row.form.length := hop ▸ opcodeLength_of_row hv hrow
  exact hop ▸ stepWith_of_overrun hv hrun hmem (by omega)

/-- Settles O27: the first four clauses are traps; a fault of an instruction that reaches its own rule is an ADDR_RANGE. -/
theorem stackBoundsRaiseStackFaults : Obligations.StackBoundsRaiseStackFaults := by
  refine ⟨fun q s hfit hs => exec_of_trap (.pushLow hfit hs), fun q s hfit hs => exec_of_trap (.callLow hfit hs),
    fun q s hfit hs => exec_of_trap (.popHigh hfit hs), fun s hs => exec_of_trap (.retHigh hs),
    fun i s t r hs he hr => ?_⟩
  rcases exec_cases he with ⟨k, v, htrap, rfl⟩ | heff
  · cases hr
    exact ⟨fun hk => Trap.stackOverflow (hk ▸ htrap), fun hk => Trap.stackUnderflow (hk ▸ htrap)⟩
  · have hrange := (heff.fallThrough_of_fault hs hr).1
    exact ⟨fun hk => absurd (hrange.symm.trans hk) nofun, fun hk => absurd (hrange.symm.trans hk) nofun⟩

/-- Settles O47: the fault record is looked at before the Halted bit. -/
theorem exitStatusIsTheCauseCode : Obligations.ExitStatusIsTheCauseCode :=
  ⟨fun _ _ => exitStatus_of_fault, fun _ => exitStatus_of_halted, fun _ => exitStatus_of_running, rfl, rfl, rfl, rfl, rfl, rfl⟩
end

section
/-! PROOFS. The statement about the reset input (70_reset_and_hazards.md R170). -/

open Sys2Proof Sys2Proof.Machine

/-- Settles O2: the reset input keeps nothing of the state but its memory, so its values are those of reset itself; and a step that
answers a next state was taken by a running core. -/
theorem resetInputDoesNotDependOnState : Obligations.ResetInputDoesNotDependOnState := by
  refine fun s => ⟨reset_readReg, rfl, rfl, rfl, rfl, rfl, rfl, rfl, ⟨rfl, rfl⟩, fun _ => rfl, fun hstop c t h => ?_⟩
  obtain ⟨hrun, -⟩ := stepWith_cases h
  exact hstop hrun
end
